-- ==== Sys2Proof/Word.lean ====
section
/-! DEFINITION. The word types of the block: a byte of a record (R10), a command word (R57) and its immediate field (R57). -/

namespace Sys2Proof

/-- One byte of frame memory or of a stream: an unsigned integer 0..255 (R10). -/
abbrev Byte := BitVec 8

/-- One 32-bit command word `C` (R57). -/
abbrev Word := BitVec 32

/-- The 24-bit immediate field `IMM = C[31:8]` (R57). -/
abbrev Imm := BitVec 24

/-- The 8-bit opcode field `OP = C[7:0]` (R57). -/
abbrev Opcode := BitVec 8

end Sys2Proof
end

