-- ==== Sys2Proof/Syntax/Fields.lean ====
section
/-! DEFINITION. The operand types of commands: the fields of a record by name (R11, R51 to R53) and the mutator commands that may stand in a WNEXT group (R60). -/

namespace Sys2Proof

/-- The four joystick axes (R11). -/
inductive Axis where
  /-- `leftJoystickHorizontal` -/
  | lh
  /-- `leftJoystickVertical` -/
  | lv
  /-- `rightJoystickHorizontal` -/
  | rh
  /-- `rightJoystickVertical` -/
  | rv
  deriving DecidableEq, Repr

/-- The two analogue trigger pressures (R11). -/
inductive Trigger where
  /-- `zlLinear` -/
  | zl
  /-- `zrLinear` -/
  | zr
  deriving DecidableEq, Repr

/-- The fourteen buttons, in the order of the opcode map (R51, R52, R59). -/
inductive Button where
  /-- `shoulderL` -/
  | l
  /-- `shoulderR` -/
  | r
  /-- `shoulderZL` -/
  | zl
  /-- `shoulderZR` -/
  | zr
  /-- `buttonA` -/
  | a
  /-- `buttonB` -/
  | b
  /-- `buttonY` -/
  | y
  /-- `buttonX` -/
  | x
  /-- `buttonHome` -/
  | home
  /-- `buttonScreenshot` -/
  | shot
  /-- `buttonLeftJoystick` -/
  | ls
  /-- `buttonRightJoystick` -/
  | rs
  /-- `buttonMinus` -/
  | minus
  /-- `buttonPlus` -/
  | plus
  deriving DecidableEq, Repr

/-- The ten members of the D-pad enumeration (R53). -/
inductive Dpad where
  | notPressed
  | up
  | upRight
  | right
  | downRight
  | down
  | downLeft
  | left
  | upLeft
  | padding
  deriving DecidableEq, Repr

/-- The mutator class (R60): the twenty-two commands `SETJ.*` (4), `SETT.*` (2), `SETB.*` (14), `SETDP` and
`SETPAD`, as members of a `WNEXT` group. -/
inductive Mutator where
  | setj (ax : Axis) (v : Int)
  | sett (tr : Trigger) (p : Int)
  | setb (bt : Button) (b : Bool)
  | setdp (d : Dpad)
  | setpad (b : Bool)
  deriving DecidableEq, Repr

end Sys2Proof
end

