-- ==== Sys2Proof/Syntax.lean ====
section
/-! DEFINITION. The commands of the block: one constructor per row of the opcode table (R59), operands already decoded (R61). -/

namespace Sys2Proof

/-- The fifty-two commands of R59. Operands are as R61 makes them from `IMM`: a signed integer (format `S`), a truth
value (format `B`), a D-pad member (format `N`), and for `WNEXT` (format `L`) the mutator list whose length is the
header's count (R62). -/
inductive Instr where
  /-- `GETJ.LH`: get `leftJoystickHorizontal` (R101) -/
  | getjLh
  /-- `GETJ.LV`: get `leftJoystickVertical` (R102) -/
  | getjLv
  /-- `GETJ.RH`: get `rightJoystickHorizontal` (R103) -/
  | getjRh
  /-- `GETJ.RV`: get `rightJoystickVertical` (R104) -/
  | getjRv
  /-- `SETJ.LH v`: set `leftJoystickHorizontal` (R105) -/
  | setjLh (v : Int)
  /-- `SETJ.LV v`: set `leftJoystickVertical` (R106) -/
  | setjLv (v : Int)
  /-- `SETJ.RH v`: set `rightJoystickHorizontal` (R107) -/
  | setjRh (v : Int)
  /-- `SETJ.RV v`: set `rightJoystickVertical` (R108) -/
  | setjRv (v : Int)
  /-- `GETT.ZL`: get `zlLinear` (R121) -/
  | gettZl
  /-- `GETT.ZR`: get `zrLinear` (R122) -/
  | gettZr
  /-- `SETT.ZL p`: set `zlLinear` (R123) -/
  | settZl (p : Int)
  /-- `SETT.ZR p`: set `zrLinear` (R124) -/
  | settZr (p : Int)
  /-- `GETB.L`: get `shoulderL` (R132) -/
  | getbL
  /-- `GETB.R`: get `shoulderR` (R133) -/
  | getbR
  /-- `GETB.ZL`: get `shoulderZL` (R134) -/
  | getbZl
  /-- `GETB.ZR`: get `shoulderZR` (R135) -/
  | getbZr
  /-- `GETB.A`: get `buttonA` (R136) -/
  | getbA
  /-- `GETB.B`: get `buttonB` (R137) -/
  | getbB
  /-- `GETB.Y`: get `buttonY` (R138) -/
  | getbY
  /-- `GETB.X`: get `buttonX` (R139) -/
  | getbX
  /-- `GETB.HOME`: get `buttonHome` (R140) -/
  | getbHome
  /-- `GETB.SHOT`: get `buttonScreenshot` (R141) -/
  | getbShot
  /-- `GETB.LS`: get `buttonLeftJoystick` (R142) -/
  | getbLs
  /-- `GETB.RS`: get `buttonRightJoystick` (R143) -/
  | getbRs
  /-- `GETB.MINUS`: get `buttonMinus` (R144) -/
  | getbMinus
  /-- `GETB.PLUS`: get `buttonPlus` (R145) -/
  | getbPlus
  /-- `SETB.L b`: set `shoulderL` (R146) -/
  | setbL (b : Bool)
  /-- `SETB.R b`: set `shoulderR` (R147) -/
  | setbR (b : Bool)
  /-- `SETB.ZL b`: set `shoulderZL` (R148) -/
  | setbZl (b : Bool)
  /-- `SETB.ZR b`: set `shoulderZR` (R149) -/
  | setbZr (b : Bool)
  /-- `SETB.A b`: set `buttonA` (R150) -/
  | setbA (b : Bool)
  /-- `SETB.B b`: set `buttonB` (R151) -/
  | setbB (b : Bool)
  /-- `SETB.Y b`: set `buttonY` (R152) -/
  | setbY (b : Bool)
  /-- `SETB.X b`: set `buttonX` (R153) -/
  | setbX (b : Bool)
  /-- `SETB.HOME b`: set `buttonHome` (R154) -/
  | setbHome (b : Bool)
  /-- `SETB.SHOT b`: set `buttonScreenshot` (R155) -/
  | setbShot (b : Bool)
  /-- `SETB.LS b`: set `buttonLeftJoystick` (R156) -/
  | setbLs (b : Bool)
  /-- `SETB.RS b`: set `buttonRightJoystick` (R157) -/
  | setbRs (b : Bool)
  /-- `SETB.MINUS b`: set `buttonMinus` (R158) -/
  | setbMinus (b : Bool)
  /-- `SETB.PLUS b`: set `buttonPlus` (R159) -/
  | setbPlus (b : Bool)
  /-- `GETDP`: get `dPad` (R170) -/
  | getdp
  /-- `SETDP c`: set `dPad` (R171) -/
  | setdp (d : Dpad)
  /-- `ISPAD`: `isPadding()` (R180) -/
  | ispad
  /-- `SETPAD b`: `setPadding(isPadding)` (R181) -/
  | setpad (b : Bool)
  /-- `ENC`: `encode(into: byte sink)` (R182) -/
  | enc
  /-- `DEC`: `decode(from: byte source)` (R183) -/
  | dec
  /-- `CINIT`: the container's construct (R200) -/
  | cinit
  /-- `WNEXT n; m_1 .. m_n`: `writeNext(mutator)` (R201) -/
  | wnext (ms : List Mutator)
  /-- `FINISH`: `finish()` (R202) -/
  | finish
  /-- `GETW i`: `get(index)` (R203) -/
  | getw (i : Int)
  /-- `SER`: `serialize(to: byte sink)` (R204) -/
  | ser
  /-- `DESER`: `deserialize(from: byte source)` (R205) -/
  | deser
  deriving DecidableEq, Repr

end Sys2Proof
end

