-- ==== Sys2Proof/WellFormed.lean ====
section
/-! DEFINITION. Which terms of Instr some command word or group spells: operands inside their encoded width (R58, R61) and groups inside the header's count (R62). -/

namespace Sys2Proof

/-- The integers a format `S` word can carry: `sext_24` of some `IMM` (R61). -/
def fitsS (v : Int) : Bool := decide (-8388608 ≤ v ∧ v ≤ 8388607)

/-- A mutator that some member word spells (R60, R62). -/
def Mutator.wellFormed : Mutator → Bool
  | .setj _ v => fitsS v
  | .sett _ p => fitsS p
  | .setb _ _ => true
  | .setdp _ => true
  | .setpad _ => true

/-- A command that some command word or group spells (R58, R61, R62). -/
def Instr.wellFormed : Instr → Bool
  | .getjLh => true
  | .getjLv => true
  | .getjRh => true
  | .getjRv => true
  | .setjLh v => fitsS v
  | .setjLv v => fitsS v
  | .setjRh v => fitsS v
  | .setjRv v => fitsS v
  | .gettZl => true
  | .gettZr => true
  | .settZl v => fitsS v
  | .settZr v => fitsS v
  | .getbL => true
  | .getbR => true
  | .getbZl => true
  | .getbZr => true
  | .getbA => true
  | .getbB => true
  | .getbY => true
  | .getbX => true
  | .getbHome => true
  | .getbShot => true
  | .getbLs => true
  | .getbRs => true
  | .getbMinus => true
  | .getbPlus => true
  | .setbL _ => true
  | .setbR _ => true
  | .setbZl _ => true
  | .setbZr _ => true
  | .setbA _ => true
  | .setbB _ => true
  | .setbY _ => true
  | .setbX _ => true
  | .setbHome _ => true
  | .setbShot _ => true
  | .setbLs _ => true
  | .setbRs _ => true
  | .setbMinus _ => true
  | .setbPlus _ => true
  | .getdp => true
  | .setdp _ => true
  | .ispad => true
  | .setpad _ => true
  | .enc => true
  | .dec => true
  | .cinit => true
  | .wnext ms => decide (ms.length ≤ 65535) && ms.all Mutator.wellFormed
  | .finish => true
  | .getw v => fitsS v
  | .ser => true
  | .deser => true

end Sys2Proof
end

