-- ==== Sys2Proof/Decode.lean ====
section
/-! DEFINITION. The decoder of command words and groups (R57 to R63), total on any words and rejecting by name; after it the encoder, written from the same tables. -/

namespace Sys2Proof

/-- Why a command word or group spells no operation (R63). Every one of them is answered with `IllegalCommand`
(R235); the name is kept for readers and for proofs only, the response does not carry it. -/
inductive DecodeError where
  /-- `OP` is none of the 52 opcodes (R63 item 1) -/
  | reservedOpcode
  /-- a format `Z` word with `IMM ≠ 0` (R63 item 2) -/
  | immNotZero
  /-- a format `B` word with `IMM[23:1] ≠ 0` (R63 item 3) -/
  | boolHighBits
  /-- a format `N` word with `IMM[23:4] ≠ 0` (R63 item 4) -/
  | dpadHighBits
  /-- a format `N` word with `IMM[3:0]` in 9..14 (R63 item 4) -/
  | dpadCode
  /-- a `WNEXT` header with `IMM[23:16] ≠ 0` (R62 condition (a)) -/
  | countHighBits
  /-- a `WNEXT` header with fewer than `n` words after it (R62 condition (b)) -/
  | truncatedGroup
  /-- a member of a group that is a legal command but no mutator (R62 condition (c)) -/
  | notMutator
  /-- a member of a group that is a `WNEXT` header (R62 condition (c): groups do not nest) -/
  | nestedGroup
  deriving DecidableEq, Repr

/-- `OP = C[7:0]` (R57). -/
def opOf (w : Word) : Opcode := w.extractLsb' 0 8

/-- `IMM = C[31:8]` (R57). -/
def immOf (w : Word) : Imm := w.extractLsb' 8 24

/-- The command word with the given opcode and immediate (R57). -/
def mkWord (op : Opcode) (imm : Imm) : Word := imm ++ op

/-- The encoder of the D-pad enumeration, `DpadCode` of R172. -/
def dpadCode : Dpad → Nat
  | .notPressed => 0
  | .up => 1
  | .upRight => 2
  | .right => 3
  | .downRight => 4
  | .down => 5
  | .downLeft => 6
  | .left => 7
  | .upLeft => 8
  | .padding => 15

/-- The decoder of the D-pad enumeration, `DpadName` of R172: `none` stands for the codes with no member (9..14). -/
def dpadName : Nat → Option Dpad
  | 0 => some .notPressed
  | 1 => some .up
  | 2 => some .upRight
  | 3 => some .right
  | 4 => some .downRight
  | 5 => some .down
  | 6 => some .downLeft
  | 7 => some .left
  | 8 => some .upLeft
  | 15 => some .padding
  | _ => none

/-- Format `Z` (R58): no operand, legal when `IMM = 0`. -/
def formatZ (i : Instr) (imm : Imm) : Except DecodeError Instr :=
  if imm = 0 then .ok i else .error .immNotZero

/-- Format `S` (R58, R61): the operand is `sext_24(IMM)`, every `IMM` is legal. -/
def formatS (f : Int → Instr) (imm : Imm) : Except DecodeError Instr :=
  .ok (f imm.toInt)

/-- Format `B` (R58, R61): the operand is `IMM[0]`, legal when `IMM[23:1] = 0`. -/
def formatB (f : Bool → Instr) (imm : Imm) : Except DecodeError Instr :=
  if imm >>> 1 = 0 then .ok (f (imm.getLsbD 0)) else .error .boolHighBits

/-- Format `N` (R58, R61): the operand is the code `IMM[3:0]`, legal when `IMM[23:4] = 0` and the code has a member. -/
def formatN (f : Dpad → Instr) (imm : Imm) : Except DecodeError Instr :=
  if imm >>> 4 = 0 then
    match dpadName (imm.toNat % 16) with
    | some d => .ok (f d)
    | none => .error .dpadCode
  else .error .dpadHighBits

/-- The opcode map (R59) for the commands of one word. A `WNEXT` header is no command of one word. -/
def decodeOp (op : Opcode) (imm : Imm) : Except DecodeError Instr :=
  match op with
  | 0x10#8 => formatZ .getjLh imm
  | 0x11#8 => formatZ .getjLv imm
  | 0x12#8 => formatZ .getjRh imm
  | 0x13#8 => formatZ .getjRv imm
  | 0x20#8 => formatS .setjLh imm
  | 0x21#8 => formatS .setjLv imm
  | 0x22#8 => formatS .setjRh imm
  | 0x23#8 => formatS .setjRv imm
  | 0x30#8 => formatZ .gettZl imm
  | 0x31#8 => formatZ .gettZr imm
  | 0x40#8 => formatS .settZl imm
  | 0x41#8 => formatS .settZr imm
  | 0x50#8 => formatZ .getbL imm
  | 0x51#8 => formatZ .getbR imm
  | 0x52#8 => formatZ .getbZl imm
  | 0x53#8 => formatZ .getbZr imm
  | 0x54#8 => formatZ .getbA imm
  | 0x55#8 => formatZ .getbB imm
  | 0x56#8 => formatZ .getbY imm
  | 0x57#8 => formatZ .getbX imm
  | 0x58#8 => formatZ .getbHome imm
  | 0x59#8 => formatZ .getbShot imm
  | 0x5A#8 => formatZ .getbLs imm
  | 0x5B#8 => formatZ .getbRs imm
  | 0x5C#8 => formatZ .getbMinus imm
  | 0x5D#8 => formatZ .getbPlus imm
  | 0x60#8 => formatB .setbL imm
  | 0x61#8 => formatB .setbR imm
  | 0x62#8 => formatB .setbZl imm
  | 0x63#8 => formatB .setbZr imm
  | 0x64#8 => formatB .setbA imm
  | 0x65#8 => formatB .setbB imm
  | 0x66#8 => formatB .setbY imm
  | 0x67#8 => formatB .setbX imm
  | 0x68#8 => formatB .setbHome imm
  | 0x69#8 => formatB .setbShot imm
  | 0x6A#8 => formatB .setbLs imm
  | 0x6B#8 => formatB .setbRs imm
  | 0x6C#8 => formatB .setbMinus imm
  | 0x6D#8 => formatB .setbPlus imm
  | 0x70#8 => formatZ .getdp imm
  | 0x71#8 => formatN .setdp imm
  | 0x80#8 => formatZ .ispad imm
  | 0x81#8 => formatB .setpad imm
  | 0x82#8 => formatZ .enc imm
  | 0x83#8 => formatZ .dec imm
  | 0xC0#8 => formatZ .cinit imm
  | 0xC1#8 => .error .nestedGroup
  | 0xC2#8 => formatZ .finish imm
  | 0xC3#8 => formatS .getw imm
  | 0xC4#8 => formatZ .ser imm
  | 0xC5#8 => formatZ .deser imm
  | _ => .error .reservedOpcode

/-- A command of one word (R57). -/
def decodeOne (w : Word) : Except DecodeError Instr :=
  decodeOp (opOf w) (immOf w)

/-- The mutator class (R60) as a partial map from commands. -/
def toMutator : Instr → Option Mutator
  | .setjLh v => some (.setj .lh v)
  | .setjLv v => some (.setj .lv v)
  | .setjRh v => some (.setj .rh v)
  | .setjRv v => some (.setj .rv v)
  | .settZl p => some (.sett .zl p)
  | .settZr p => some (.sett .zr p)
  | .setbL b => some (.setb .l b)
  | .setbR b => some (.setb .r b)
  | .setbZl b => some (.setb .zl b)
  | .setbZr b => some (.setb .zr b)
  | .setbA b => some (.setb .a b)
  | .setbB b => some (.setb .b b)
  | .setbY b => some (.setb .y b)
  | .setbX b => some (.setb .x b)
  | .setbHome b => some (.setb .home b)
  | .setbShot b => some (.setb .shot b)
  | .setbLs b => some (.setb .ls b)
  | .setbRs b => some (.setb .rs b)
  | .setbMinus b => some (.setb .minus b)
  | .setbPlus b => some (.setb .plus b)
  | .setdp d => some (.setdp d)
  | .setpad b => some (.setpad b)
  | .getjLh => none
  | .getjLv => none
  | .getjRh => none
  | .getjRv => none
  | .gettZl => none
  | .gettZr => none
  | .getbL => none
  | .getbR => none
  | .getbZl => none
  | .getbZr => none
  | .getbA => none
  | .getbB => none
  | .getbY => none
  | .getbX => none
  | .getbHome => none
  | .getbShot => none
  | .getbLs => none
  | .getbRs => none
  | .getbMinus => none
  | .getbPlus => none
  | .getdp => none
  | .ispad => none
  | .enc => none
  | .dec => none
  | .cinit => none
  | .wnext _ => none
  | .finish => none
  | .getw _ => none
  | .ser => none
  | .deser => none

/-- A member of a `WNEXT` group: a legal word of the mutator class (R62 condition (c)). -/
def decodeMember (w : Word) : Except DecodeError Mutator :=
  match decodeOne w with
  | .error e => .error e
  | .ok i =>
    match toMutator i with
    | some m => .ok m
    | none => .error .notMutator

/-- The member words of a group, in order (R62): the first illegal one makes the group illegal. -/
def decodeMembers : List Word → Except DecodeError (List Mutator)
  | [] => .ok []
  | w :: ws =>
    match decodeMember w with
    | .error e => .error e
    | .ok m =>
      match decodeMembers ws with
      | .error e => .error e
      | .ok ms => .ok (m :: ms)

/-- How many words after the first belong to the command (R62): `n` for a `WNEXT` header that is a legal format `L`
word, none for every other word. -/
def extraWords (w : Word) : Nat :=
  if opOf w = 0xC1#8 ∧ immOf w >>> 16 = 0 then (immOf w).toNat else 0

/-- One command (R57, R62): the word `w`, and for a `WNEXT` header the words of its group from `ws`. The second
component is where the decoder resumes. -/
def decodeCmd (w : Word) (ws : List Word) : Except DecodeError Instr × List Word :=
  (if opOf w = 0xC1#8 then
      if immOf w >>> 16 = 0 then
        if ws.length < extraWords w then .error .truncatedGroup
        else
          match decodeMembers (ws.take (extraWords w)) with
          | .ok ms => .ok (.wnext ms)
          | .error e => .error e
      else .error .countHighBits
    else decodeOne w,
   ws.drop (extraWords w))

/-- The four bytes of a command word, least significant byte first (R57). -/
def wordBytes (w : Word) : List Byte :=
  [w.extractLsb' 0 8, w.extractLsb' 8 8, w.extractLsb' 16 8, w.extractLsb' 24 8]

/-- The command words a byte sequence spells, four bytes a word, least significant byte first (R57). Bytes short of a
whole word at the end spell nothing and are dropped (log entry 13). -/
def wordsOfBytes : List Byte → List Word
  | b0 :: b1 :: b2 :: b3 :: bs => (b3 ++ b2 ++ b1 ++ b0 : BitVec (8 + 8 + 8 + 8)) :: wordsOfBytes bs
  | _ => []

/-- The instruction whose bits are `w`, as words in the order the host presents them: the first word is the least
significant. Words of zeros follow where the header's count asks for members. -/
def tableWords (nbits w : Nat) : List Word :=
  let ws : List Word := (List.range ((nbits + 31) / 32)).map fun j => BitVec.ofNat 32 ((w % 2 ^ nbits) >>> (32 * j))
  match ws with
  | [] => []
  | c :: cs => c :: (cs ++ List.replicate (extraWords c - cs.length) 0)

/-- What the decoder reads from the instruction whose bits are `w`. -/
def decodeTableWord (nbits w : Nat) : Option Instr :=
  match tableWords nbits w with
  | [] => none
  | c :: cs =>
    match (decodeCmd c cs).1 with
    | .ok i => some i
    | .error _ => none

/-- The command that a mutator is when it is issued directly (R60). -/
def ofMutator : Mutator → Instr
  | .setj .lh v => .setjLh v
  | .setj .lv v => .setjLv v
  | .setj .rh v => .setjRh v
  | .setj .rv v => .setjRv v
  | .sett .zl p => .settZl p
  | .sett .zr p => .settZr p
  | .setb .l b => .setbL b
  | .setb .r b => .setbR b
  | .setb .zl b => .setbZl b
  | .setb .zr b => .setbZr b
  | .setb .a b => .setbA b
  | .setb .b b => .setbB b
  | .setb .y b => .setbY b
  | .setb .x b => .setbX b
  | .setb .home b => .setbHome b
  | .setb .shot b => .setbShot b
  | .setb .ls b => .setbLs b
  | .setb .rs b => .setbRs b
  | .setb .minus b => .setbMinus b
  | .setb .plus b => .setbPlus b
  | .setdp d => .setdp d
  | .setpad b => .setpad b

/-- The opcode of a command (R59). -/
def opcode : Instr → Opcode
  | .getjLh => 0x10#8
  | .getjLv => 0x11#8
  | .getjRh => 0x12#8
  | .getjRv => 0x13#8
  | .setjLh _ => 0x20#8
  | .setjLv _ => 0x21#8
  | .setjRh _ => 0x22#8
  | .setjRv _ => 0x23#8
  | .gettZl => 0x30#8
  | .gettZr => 0x31#8
  | .settZl _ => 0x40#8
  | .settZr _ => 0x41#8
  | .getbL => 0x50#8
  | .getbR => 0x51#8
  | .getbZl => 0x52#8
  | .getbZr => 0x53#8
  | .getbA => 0x54#8
  | .getbB => 0x55#8
  | .getbY => 0x56#8
  | .getbX => 0x57#8
  | .getbHome => 0x58#8
  | .getbShot => 0x59#8
  | .getbLs => 0x5A#8
  | .getbRs => 0x5B#8
  | .getbMinus => 0x5C#8
  | .getbPlus => 0x5D#8
  | .setbL _ => 0x60#8
  | .setbR _ => 0x61#8
  | .setbZl _ => 0x62#8
  | .setbZr _ => 0x63#8
  | .setbA _ => 0x64#8
  | .setbB _ => 0x65#8
  | .setbY _ => 0x66#8
  | .setbX _ => 0x67#8
  | .setbHome _ => 0x68#8
  | .setbShot _ => 0x69#8
  | .setbLs _ => 0x6A#8
  | .setbRs _ => 0x6B#8
  | .setbMinus _ => 0x6C#8
  | .setbPlus _ => 0x6D#8
  | .getdp => 0x70#8
  | .setdp _ => 0x71#8
  | .ispad => 0x80#8
  | .setpad _ => 0x81#8
  | .enc => 0x82#8
  | .dec => 0x83#8
  | .cinit => 0xC0#8
  | .wnext _ => 0xC1#8
  | .finish => 0xC2#8
  | .getw _ => 0xC3#8
  | .ser => 0xC4#8
  | .deser => 0xC5#8

/-- The immediate that carries a command's operand (R58, R61). -/
def immediate : Instr → Imm
  | .getjLh => 0
  | .getjLv => 0
  | .getjRh => 0
  | .getjRv => 0
  | .setjLh v => BitVec.ofInt 24 v
  | .setjLv v => BitVec.ofInt 24 v
  | .setjRh v => BitVec.ofInt 24 v
  | .setjRv v => BitVec.ofInt 24 v
  | .gettZl => 0
  | .gettZr => 0
  | .settZl v => BitVec.ofInt 24 v
  | .settZr v => BitVec.ofInt 24 v
  | .getbL => 0
  | .getbR => 0
  | .getbZl => 0
  | .getbZr => 0
  | .getbA => 0
  | .getbB => 0
  | .getbY => 0
  | .getbX => 0
  | .getbHome => 0
  | .getbShot => 0
  | .getbLs => 0
  | .getbRs => 0
  | .getbMinus => 0
  | .getbPlus => 0
  | .setbL b => BitVec.ofNat 24 b.toNat
  | .setbR b => BitVec.ofNat 24 b.toNat
  | .setbZl b => BitVec.ofNat 24 b.toNat
  | .setbZr b => BitVec.ofNat 24 b.toNat
  | .setbA b => BitVec.ofNat 24 b.toNat
  | .setbB b => BitVec.ofNat 24 b.toNat
  | .setbY b => BitVec.ofNat 24 b.toNat
  | .setbX b => BitVec.ofNat 24 b.toNat
  | .setbHome b => BitVec.ofNat 24 b.toNat
  | .setbShot b => BitVec.ofNat 24 b.toNat
  | .setbLs b => BitVec.ofNat 24 b.toNat
  | .setbRs b => BitVec.ofNat 24 b.toNat
  | .setbMinus b => BitVec.ofNat 24 b.toNat
  | .setbPlus b => BitVec.ofNat 24 b.toNat
  | .getdp => 0
  | .setdp d => BitVec.ofNat 24 (dpadCode d)
  | .ispad => 0
  | .setpad b => BitVec.ofNat 24 b.toNat
  | .enc => 0
  | .dec => 0
  | .cinit => 0
  | .wnext ms => BitVec.ofNat 24 ms.length
  | .finish => 0
  | .getw v => BitVec.ofInt 24 v
  | .ser => 0
  | .deser => 0

/-- The first word of a command. -/
def firstWord (i : Instr) : Word := mkWord (opcode i) (immediate i)

/-- The words of a well-formed command (R57, R62): one word, or a `WNEXT` header and its members. -/
def encode : Instr → List Word
  | .wnext ms => firstWord (.wnext ms) :: ms.map fun m => firstWord (ofMutator m)
  | i => [firstWord i]

end Sys2Proof
end

