-- ==== Sys2Proof/Machine/Constants.lean ====
section
/-! DEFINITION. The constants of the block, one place for all of them (R2, U14), and the two record contents the spec names (R19, R21, R54). -/

namespace Sys2Proof.Machine

/-- `WORD_BYTES`: bytes in one record (R2). -/
@[simp] abbrev wordBytes : Nat := 16
/-- `N_WORDS`: records in the frame store (R2). -/
@[simp] abbrev nWords : Nat := 65536
/-- `FILE_BYTES`: `N_WORDS × WORD_BYTES` (R2). -/
@[simp] abbrev fileBytes : Nat := 1048576
/-- `CUR_MAX`: the cursor value at which `WNEXT` fails (R2). -/
@[simp] abbrev curMax : Nat := 65536
/-- `BIAS`: added to a joystick value before storage (R2). -/
@[simp] abbrev bias : Int := 2048
/-- `JOY_MIN` (R2). -/
@[simp] abbrev joyMin : Int := -2048
/-- `JOY_MAX` (R2). -/
@[simp] abbrev joyMax : Int := 2047
/-- `TRIG_MIN` (R2). -/
@[simp] abbrev trigMin : Int := 0
/-- `TRIG_MAX` (R2). -/
@[simp] abbrev trigMax : Int := 255
/-- `TERM`: the terminator of an active record (R2). -/
@[simp] abbrev term : Byte := 0x02#8
/-- `PAD`: every byte of a padding record (R2). -/
@[simp] abbrev pad : Byte := 0xFF#8
/-- `OFF_DPAD` (R2). -/
@[simp] abbrev offDpad : Nat := 14
/-- `OFF_TERM` (R2). -/
@[simp] abbrev offTerm : Nat := 15
/-- `OFF_BTN1`: the face and shoulder button byte (R2). -/
@[simp] abbrev offBtn1 : Nat := 12
/-- `OFF_BTN2`: the secondary button byte (R2). -/
@[simp] abbrev offBtn2 : Nat := 13

/-- `ACTIVE_RESET` (R19): the four axes centred, everything else zero but the terminator. -/
def activeReset : List Byte :=
  [0x00#8, 0x08#8, 0x00#8, 0x08#8, 0x00#8, 0x08#8, 0x00#8, 0x08#8,
   0x00#8, 0x00#8, 0x00#8, 0x00#8, 0x00#8, 0x00#8, 0x00#8, term]

/-- The record of `INIT_WORD = ACTIVE_UNCENTRED` (R21): every byte zero but the terminator. -/
def activeUncentred : List Byte :=
  [0x00#8, 0x00#8, 0x00#8, 0x00#8, 0x00#8, 0x00#8, 0x00#8, 0x00#8,
   0x00#8, 0x00#8, 0x00#8, 0x00#8, 0x00#8, 0x00#8, 0x00#8, term]

/-- A padding record (R54). -/
def paddingRecord : List Byte := List.replicate wordBytes pad

end Sys2Proof.Machine
end

