-- ==== Sys2Proof/Config.lean ====
section
/-! DEFINITION. What the spec leaves open: the parameters of `00_scope.md` R3 (types; their values stand in `State.params`) and the free values. -/

namespace Sys2Proof.Config

/-- Parameter `INIT_WORD` of R3: the bytes of a record after construct or reset (R21; decision D11, U8). -/
inductive InitWord where
  /-- the default: the bytes of `ACTIVE_RESET` (R19) -/
  | activeCentred
  /-- every byte zero, then the terminator -/
  | activeUncentred
  deriving DecidableEq, Repr

/-- Parameter `PADDED_READ` of R3: what a field getter returns on a padding record (R54; decision D15, U1). -/
inductive PaddedRead where
  /-- the default: the read algorithm applied to the 0xFF bytes -/
  | algorithmic
  /-- an unconstrained value of the getter's type -/
  | any
  deriving DecidableEq, Repr

/-- The open parameters of the step (R3). The fourth of R3, `FAILED_DECODE`, has the one value `ANY_BYTES`, so it
needs no field: a short read always leaves free bytes (`freeRecordByte`). -/
structure Params where
  /-- `INIT_WORD` -/
  initWord : InitWord
  /-- `PADDED_READ` -/
  paddedRead : PaddedRead
  /-- `SINK_FAILS` -/
  sinkFails : Bool
  deriving DecidableEq, Repr

/-- FREE VALUE (log entry 7). The sixteen bits a `GETJ` sees on a padding record under `PADDED_READ = ANY` (U1),
applied to the number of draws made so far. -/
opaque freeHalf : Nat → BitVec 16

/-- FREE VALUE (log entry 7). The byte a `GETT`, `GETB` or `GETDP` sees on a padding record under
`PADDED_READ = ANY` (U1), applied to the number of draws made so far. -/
opaque freeByte : Nat → Byte

/-- FREE VALUE (log entry 8). Byte `k` of the record that a short read hit (R183, R205, U2): `freeRecordByte draw k`. -/
opaque freeRecordByte : Nat → Nat → Byte

/-- FREE VALUE (log entry 8). How far a short read moves the source position (R183, R205, U2), before the limit to
the unread bytes is applied. -/
opaque freePosition : Nat → Nat

end Sys2Proof.Config
end

