-- ==== Sys2Proof/Machine/State.lean ====
section
/-! DEFINITION. The state of the block and of its environment (10_state.md), what a response is (R64), why a step can stop, and the state after reset (R21, R260). -/

namespace Sys2Proof.Machine

/-- A memory: the bytes of `FM` (R10) that differ from their reset contents, as (address, byte) pairs with addresses
strictly rising. `Memory.read` says what an address reads as and `Memory.wf` states the form. -/
abbrev Memory := List Host.Cell

/-- The statuses of R64 and R230. -/
inductive Status where
  /-- code 0: the command completed -/
  | ok
  /-- code 1: operand outside the field's domain (R231) -/
  | rangeError
  /-- code 2: a short read, or a D-pad nibble with no code (R232) -/
  | formatError
  /-- code 3: `WNEXT` at `CUR = 65536` (R233) -/
  | capacityError
  /-- code 4: `GETW` outside 0..65535 (R234) -/
  | indexError
  /-- code 5: a word or group that spells no operation (R235) -/
  | illegalCommand
  deriving DecidableEq, Repr

/-- One response `(status, value)` (R64). The value is the exact integer; `Response.pack` gives the bit form. -/
structure Response where
  status : Status
  value : Int
  deriving DecidableEq, Repr

/-- The byte source `SRC` (R16): a finite sequence of bytes and a read position. -/
structure Source where
  bytes : List Byte
  pos : Nat
  deriving DecidableEq, Repr

/-- Everything the spec gives the machine: the state of the block (`FM`, `CUR`, `WSEL`), its environment (the byte
streams, the host's command list, the responses), the parameters of the step, and the model's own draw counter. -/
structure State where
  /-- `FM`, the frame memory (R10) -/
  fm : Memory
  /-- `CUR`, the write cursor, 0..65536 (R13) -/
  cur : Nat
  /-- `WSEL`, the word-select register (R14) -/
  wsel : BitVec 16
  /-- `SRC`, the byte source; `none` when the host has attached none (R16, R263) -/
  src : Option Source
  /-- `SNK`, the byte sink, oldest byte first; `none` when the host has attached none (R17, R263) -/
  snk : Option (List Byte)
  /-- the host's command words not yet taken, next word first (R4, R15, R62) -/
  cmds : List Word
  /-- the responses given so far, oldest first (R4, R64, R273) -/
  resps : List Response
  /-- the open parameters of the step (R3); no step writes them -/
  params : Config.Params
  /-- THE MODEL'S OWN: how many free values have been drawn (log entries 7, 8) -/
  draws : Nat
  deriving DecidableEq, Repr

/-- Why the machine stops with a fault. The spec gives the block no fault of this kind: its errors are responses. -/
inductive Fault where
  /-- Raised by `WNEXT` when `CUR > 65536`: the slot it would write lies outside `FM` (R10, R36). No run reaches such a
  state (R13, R22). Safe. -/
  | outsideFrameMemory
  deriving DecidableEq, Repr

/-- Why the model gives a step no meaning. -/
inductive Refusal where
  /-- Raised by an arm of exec that has no meaning yet. Safe. -/
  | notModelled (mnemonic : String)
  /-- Raised by `DEC` and `DESER` when the host has attached no byte source (R263, U12). Safe. -/
  | noByteSource
  /-- Raised by `ENC` and `SER` when the host has attached no byte sink (R263, U12). Safe. -/
  | noByteSink
  /-- Raised by `ENC` and `SER` under the parameter `SINK_FAILS = true` (R17, U6). Safe. -/
  | sinkMayFail
  deriving DecidableEq, Repr

/-- The state right after reset (R21, R260), which is also the launch state (D12): every record is `INIT_WORD`,
`CUR = 0`, `WSEL = 0`, the parameters at their defaults (R3). What the host supplies is empty: no command, and byte
streams attached and empty (log entry 4). -/
def State.reset : State where
  fm := []
  cur := 0
  wsel := 0
  src := some ⟨[], 0⟩
  snk := some []
  cmds := []
  resps := []
  params := ⟨.activeCentred, .algorithmic, false⟩
  draws := 0

end Sys2Proof.Machine
end

