-- ==== Sys2Proof/Machine/Memory.lean ====
section
/-! DEFINITION. Frame memory as sparse data (R10, R36): what an unlisted address reads as, reading, writing a run of bytes, and the canonical form. -/

namespace Sys2Proof.Machine

/-- The bytes of `INIT_WORD` (R21). -/
def initRecord : Config.InitWord → List Byte
  | .activeCentred => activeReset
  | .activeUncentred => activeUncentred

/-- What an unlisted address reads as: the byte it holds after reset, byte `x mod 16` of `INIT_WORD` (R10, R21). -/
def Memory.initial (iw : Config.InitWord) (x : Nat) : Byte :=
  (initRecord iw).getD (x % wordBytes) 0

/-- `FM[x]` (R10): the listed byte, or the reset contents. -/
def Memory.read (iw : Config.InitWord) (m : Memory) (x : Nat) : Byte :=
  match m.dropWhile (fun c => decide (c.1 < x)) with
  | [] => Memory.initial iw x
  | c :: _ => if c.1 = x then c.2 else Memory.initial iw x

/-- The `n` bytes of `FM` from address `x` on, in address order, in one pass over the list (R31). -/
def Memory.bytes (iw : Config.InitWord) : Nat → Nat → Memory → List Byte
  | 0, _, _ => []
  | n + 1, x, m =>
    Memory.read iw (m.dropWhile (fun c => decide (c.1 < x))) x ::
      Memory.bytes iw n (x + 1) (m.dropWhile (fun c => decide (c.1 < x)))

/-- The cells that a run of bytes from address `x` on needs: the bytes that differ from the reset contents. -/
def Memory.cells (iw : Config.InitWord) : Nat → List Byte → Memory
  | _, [] => []
  | x, b :: bs => if b = Memory.initial iw x then Memory.cells iw (x + 1) bs else (x, b) :: Memory.cells iw (x + 1) bs

/-- The run of bytes `bs` stored from address `x` on; every other byte keeps its value (R30, R81). -/
def Memory.write (iw : Config.InitWord) (m : Memory) (x : Nat) (bs : List Byte) : Memory :=
  m.takeWhile (fun c => decide (c.1 < x)) ++
    (Memory.cells iw x bs ++ m.dropWhile (fun c => decide (c.1 < x + bs.length)))

/-- The canonical form: addresses strictly rising, inside `FM`, and no cell equal to what its address reads as unlisted. -/
abbrev Memory.wf (iw : Config.InitWord) (m : Memory) : Prop :=
  m.Pairwise (fun c d => c.1 < d.1) ∧ ∀ c ∈ m, c.1 < fileBytes ∧ c.2 ≠ Memory.initial iw c.1

end Sys2Proof.Machine
end

