-- ==== Sys2Proof/Machine/Ops.lean ====
section
/-! DEFINITION. The named operations of the block: updates of one piece of state, byte and little-endian access to frame memory (R30, R31), the load/store unit (R80 to R90), the byte streams (R16, R17), and the two ways a command ends (R236). -/

namespace Sys2Proof.Machine

/-- What a command ends in. -/
abbrev Result := Host.Outcome State Fault Refusal

/-! ## Updates of one piece of state -/

/-- `CUR <- n`. -/
def State.setCur (s : State) (n : Nat) : State := { s with cur := n }

/-- `WSEL <- i`. -/
def State.setWsel (s : State) (i : BitVec 16) : State := { s with wsel := i }

/-- The byte source becomes `sr` (its bytes never change, its position may). -/
def State.setSrc (s : State) (sr : Source) : State := { s with src := some sr }

/-- The sink becomes `out`. -/
def State.setSnk (s : State) (out : List Byte) : State := { s with snk := some out }

/-- The host's words not yet taken become `ws`. -/
def State.setCmds (s : State) (ws : List Word) : State := { s with cmds := ws }

/-- One free value has been drawn. -/
def State.draw (s : State) : State := { s with draws := s.draws + 1 }

/-- A response is given (R64). -/
def State.respond (s : State) (st : Status) (v : Int) : State := { s with resps := s.resps ++ [⟨st, v⟩] }

/-- A run of bytes is stored in `FM`. -/
def State.setBytes (s : State) (x : Nat) (bs : List Byte) : State :=
  { s with fm := Memory.write s.params.initWord s.fm x bs }

/-- The state of the block is as after construct (R21, R200): the frame memory at its reset contents and both registers
0; the streams are not touched. -/
def State.construct (s : State) : State := { s with fm := [], cur := 0, wsel := 0 }

/-! ## How a command ends -/

/-- `resp(OK, v)` (R64): the command completes. -/
def answer (v : Int) (s : State) : Result := .next (s.respond .ok v)

/-- `raise e` (R236): the command stops, its response is `(e, 0)`, nothing is saved, no mode changes, and control goes
nowhere; the state is what it is at that point (R237). There is no return (R238). -/
def raise (e : Status) (s : State) : Result := .next (s.respond e 0)

/-- The end of a command that is one mutator: `resp(OK, 0)` after its effect, or its error with the state unchanged. -/
def complete (r : Except Status State) (s : State) : Result :=
  match r with
  | .ok s' => answer 0 s'
  | .error e => raise e s

/-- The status codes of R64. -/
def statusCode : Status → BitVec 3
  | .ok => 0
  | .rangeError => 1
  | .formatError => 2
  | .capacityError => 3
  | .indexError => 4
  | .illegalCommand => 5

/-- The bit form of a response (R64): `R[31:0]` the value, `R[34:32]` the status, `R[63:35] = 0`. -/
def Response.pack (r : Response) : BitVec 64 :=
  (0#29 ++ statusCode r.status ++ BitVec.ofInt 32 r.value : BitVec (29 + 3 + 32))

/-! ## Bytes of frame memory -/

/-- `FM[x]` (R10). -/
def State.byteAt (s : State) (x : Nat) : Byte := Memory.read s.params.initWord s.fm x

/-- The `n` bytes of `FM` from address `x` on (R31). -/
def State.bytesAt (s : State) (x n : Nat) : List Byte := Memory.bytes s.params.initWord n x s.fm

/-- `MemRead(a, n)` (R30, R90): byte `j` holds bits `8j+7 : 8j`. -/
def State.memRead (s : State) : Nat → Nat → Nat
  | _, 0 => 0
  | x, n + 1 => (s.byteAt x).toNat + 256 * s.memRead (x + 1) n

/-- The `n` low bytes of `v`, least significant first (R30, R90). -/
def bytesLE : Nat → Nat → List Byte
  | 0, _ => []
  | n + 1, v => BitVec.ofNat 8 v :: bytesLE n (v / 256)

/-- `MemWrite(a, n, v)` (R30). -/
def State.memWrite (s : State) (x n v : Nat) : State := s.setBytes x (bytesLE n v)

/-- The byte address of `W[k]` for target record `t` (R88). -/
def byteAddr (t k : Nat) : Nat := wordBytes * t + k

/-! ## The load/store unit -/

/-- The masked test of R84 on a byte: `(b & m) ≠ 0`. -/
def testMask (b m : Byte) : Bool := decide (b &&& m ≠ 0)

/-- The masked write of R85 on a byte: OR the mask in, or AND with the inverted mask. -/
def writeMask (b m : Byte) (v : Bool) : Byte := if v then b ||| m else b &&& (0xFF#8 - m)

/-- The low nibble of a byte (R86). -/
def lowNibble (b : Byte) : Nat := (b &&& 0x0F#8).toNat

/-- The nibble write of R87 on a byte: clear the low four bits, OR in the code. -/
def writeNibble (b : Byte) (c : Nat) : Byte := (b &&& 0xF0#8) ||| BitVec.ofNat 8 c

/-- `LD8(k)` (R80). -/
def State.ld8 (s : State) (t k : Nat) : Byte := s.byteAt (byteAddr t k)

/-- `ST8(k, b)` (R81). -/
def State.st8 (s : State) (t k : Nat) (b : Byte) : State := s.setBytes (byteAddr t k) [b]

/-- `LD16LE(k)` (R82). -/
def State.ld16le (s : State) (t k : Nat) : Nat := s.memRead (byteAddr t k) 2

/-- `ST16LE(k, u)` (R83), total on the integers: the stored value is `u mod 65536` (D24). -/
def State.st16le (s : State) (t k : Nat) (u : Int) : State := s.memWrite (byteAddr t k) 2 (u % 65536).toNat

/-- `BTEST(k, m)` (R84). -/
def State.btest (s : State) (t k : Nat) (m : Byte) : Bool := testMask (s.ld8 t k) m

/-- `BWRITE(k, m, b)` (R85). -/
def State.bwrite (s : State) (t k : Nat) (m : Byte) (b : Bool) : State := s.st8 t k (writeMask (s.ld8 t k) m b)

/-- `NIBRD(k)` (R86). -/
def State.nibrd (s : State) (t k : Nat) : Nat := lowNibble (s.ld8 t k)

/-- `NIBWR(k, c)` (R87). -/
def State.nibwr (s : State) (t k c : Nat) : State := s.st8 t k (writeNibble (s.ld8 t k) c)

/-- The sixteen bytes of record `t`, byte 0 first (R31). -/
def State.recordBytes (s : State) (t : Nat) : List Byte := s.bytesAt (byteAddr t 0) wordBytes

/-- Record `t` becomes the bytes `bs`, first byte at offset 0 (R31). -/
def State.setRecord (s : State) (t : Nat) (bs : List Byte) : State := s.setBytes (byteAddr t 0) bs

/-! ## The byte streams -/

/-- `SrcAvail()` (R16). -/
def Source.avail (sr : Source) : Nat := sr.bytes.length - sr.pos

/-- The next `n` unread bytes of the source (R16). -/
def Source.next (sr : Source) (n : Nat) : List Byte := (sr.bytes.drop sr.pos).take n

/-- The source with its position `n` bytes further (R16). -/
def Source.advance (sr : Source) (n : Nat) : Source := ⟨sr.bytes, sr.pos + n⟩

/-- `SnkWrite(bs)`, then `resp(OK, 0)` (R17, R182, R204). Under `SINK_FAILS = true` (U6), and with no sink attached
(R263, U12), the model gives the command no meaning. -/
def sinkWrite (bs : List Byte) (s : State) : Result :=
  if s.params.sinkFails then .refused .sinkMayFail
  else
    match s.snk with
    | none => .refused .noByteSink
    | some out => answer 0 (s.setSnk (out ++ bs))

/-- The sixteen free bytes of a record that a short read hit (U2): `draw` is the draw they come from. -/
def freeRecord (draw : Nat) : List Byte := (List.range wordBytes).map (Config.freeRecordByte draw)

/-- The source after a short read: its position is anywhere from where it stood to the end (R16, R183, R205). -/
def shortReadSource (sr : Source) (draw : Nat) : Source :=
  sr.advance (Config.freePosition draw % (sr.avail + 1))

/-- What a short read of record `t` leaves (R183, R205, R237; `FAILED_DECODE = ANY_BYTES`): sixteen free bytes in the
record and a free source position. -/
def shortRead (t : Nat) (sr : Source) (s : State) : State :=
  ((s.setRecord t (freeRecord s.draws)).setSrc (shortReadSource sr s.draws)).draw

end Sys2Proof.Machine
end

