-- ==== Sys2Proof/Machine/Flags.lean ====
section
/-! DEFINITION. The block has no flags (R18, R20): what other machines keep in a flag is recomputed here from the bytes of a record, as the three record classes of R18. -/

namespace Sys2Proof.Machine

/-- Sixteen bytes that make a padding record (R18, R54). -/
def allPad (bs : List Byte) : Bool := bs.all fun b => decide (b = pad)

/-- `PADDING(W)` of record `t` (R18, R180). -/
def State.isPadding (s : State) (t : Nat) : Bool := allPad (s.recordBytes t)

/-- `ACTIVE(W)` of record `t` (R18). -/
def State.isActive (s : State) (t : Nat) : Bool := decide (s.ld8 t offTerm = term)

/-- `MALFORMED(W)` of record `t` (R18). -/
def State.isMalformed (s : State) (t : Nat) : Bool := !s.isPadding t && !s.isActive t

end Sys2Proof.Machine
end

