-- ==== Sys2Proof/Machine/Operands.lean ====
section
/-! DEFINITION. Operand forms: the target record (R12), the fixed offsets and masks of the fields (R11, R51, R52, 40_lsu.md section 7), and what a field getter sees of the record's bytes (R54, U1). -/

namespace Sys2Proof.Machine

/-- The target record of a codec command issued directly (R12). -/
def State.target (s : State) : Nat := s.wsel.toNat

/-- `OFF_LJH, OFF_LJV, OFF_RJH, OFF_RJV` (R2). -/
def axisOffset : Axis → Nat
  | .lh => 0
  | .lv => 2
  | .rh => 4
  | .rv => 6

/-- `OFF_ZL, OFF_ZR` (R2). -/
def triggerOffset : Trigger → Nat
  | .zl => 9
  | .zr => 11

/-- The byte that holds a button's bit (R51, R52). -/
def buttonOffset : Button → Nat
  | .l | .r | .zl | .zr | .a | .b | .y | .x => offBtn1
  | .home | .shot | .ls | .rs | .minus | .plus => offBtn2

/-- A button's mask within its byte (R51, R52). -/
def buttonMask : Button → Byte
  | .a => 0x01#8
  | .b => 0x02#8
  | .y => 0x04#8
  | .x => 0x08#8
  | .l => 0x10#8
  | .r => 0x20#8
  | .zl => 0x40#8
  | .zr => 0x80#8
  | .ls => 0x01#8
  | .rs => 0x02#8
  | .minus => 0x04#8
  | .plus => 0x08#8
  | .home => 0x10#8
  | .shot => 0x20#8

/-- Whether a field getter of record `t` answers a free value: `PADDED_READ = ANY` and the record is padding (U1). -/
def State.readsFree (s : State) (t : Nat) : Bool :=
  decide (s.params.paddedRead = .any) && s.isPadding t

/-- What a getter of a one-byte, one-bit or nibble field sees of byte `k` of record `t`: `LD8(k)`, or a free byte (U1). -/
def State.fieldByte (s : State) (t k : Nat) : Byte :=
  if s.readsFree t then Config.freeByte s.draws else s.ld8 t k

/-- What a getter of a joystick field sees of bytes `k`, `k+1` of record `t`: `LD16LE(k)`, or sixteen free bits (U1). -/
def State.fieldHalf (s : State) (t k : Nat) : Nat :=
  if s.readsFree t then (Config.freeHalf s.draws).toNat else s.ld16le t k

/-- The state after a field getter of record `t` has read: nothing has changed but the draw counter, if a free value
was drawn. -/
def State.afterFieldRead (s : State) (t : Nat) : State :=
  if s.readsFree t then s.draw else s

end Sys2Proof.Machine
end

