-- ==== Sys2Proof/Machine/Buttons.lean ====
section
/-! DEFINITION. The button family (43_buttons.md): GETB.* and SETB.*. -/

namespace Sys2Proof.Machine

/-- `BtnRead(k, m)` of the target record (R130): 1 for pressed, 0 for released. -/
def btnGet (bt : Button) (s : State) : Result :=
  answer ((testMask (s.fieldByte s.target (buttonOffset bt)) (buttonMask bt)).toNat : Int) (s.afterFieldRead s.target)

/-- `BtnWrite(k, m, b)` of record `t` (R131): `BWRITE(k, m, b)`; it has no range failure. -/
def btnWrite (t : Nat) (bt : Button) (b : Bool) (s : State) : Except Status State :=
  .ok (s.bwrite t (buttonOffset bt) (buttonMask bt) b)

/-- `GETB.L` (R132). -/
def execGetbL (s : State) : Result := btnGet .l s

/-- `GETB.R` (R133). -/
def execGetbR (s : State) : Result := btnGet .r s

/-- `GETB.ZL` (R134). -/
def execGetbZl (s : State) : Result := btnGet .zl s

/-- `GETB.ZR` (R135). -/
def execGetbZr (s : State) : Result := btnGet .zr s

/-- `GETB.A` (R136). -/
def execGetbA (s : State) : Result := btnGet .a s

/-- `GETB.B` (R137). -/
def execGetbB (s : State) : Result := btnGet .b s

/-- `GETB.Y` (R138). -/
def execGetbY (s : State) : Result := btnGet .y s

/-- `GETB.X` (R139). -/
def execGetbX (s : State) : Result := btnGet .x s

/-- `GETB.HOME` (R140). -/
def execGetbHome (s : State) : Result := btnGet .home s

/-- `GETB.SHOT` (R141). -/
def execGetbShot (s : State) : Result := btnGet .shot s

/-- `GETB.LS` (R142). -/
def execGetbLs (s : State) : Result := btnGet .ls s

/-- `GETB.RS` (R143). -/
def execGetbRs (s : State) : Result := btnGet .rs s

/-- `GETB.MINUS` (R144). -/
def execGetbMinus (s : State) : Result := btnGet .minus s

/-- `GETB.PLUS` (R145). -/
def execGetbPlus (s : State) : Result := btnGet .plus s

/-- `SETB.L b` (R146). -/
def execSetbL (b : Bool) (s : State) : Result := complete (btnWrite s.target .l b s) s

/-- `SETB.R b` (R147). -/
def execSetbR (b : Bool) (s : State) : Result := complete (btnWrite s.target .r b s) s

/-- `SETB.ZL b` (R148). -/
def execSetbZl (b : Bool) (s : State) : Result := complete (btnWrite s.target .zl b s) s

/-- `SETB.ZR b` (R149). -/
def execSetbZr (b : Bool) (s : State) : Result := complete (btnWrite s.target .zr b s) s

/-- `SETB.A b` (R150). -/
def execSetbA (b : Bool) (s : State) : Result := complete (btnWrite s.target .a b s) s

/-- `SETB.B b` (R151). -/
def execSetbB (b : Bool) (s : State) : Result := complete (btnWrite s.target .b b s) s

/-- `SETB.Y b` (R152). -/
def execSetbY (b : Bool) (s : State) : Result := complete (btnWrite s.target .y b s) s

/-- `SETB.X b` (R153). -/
def execSetbX (b : Bool) (s : State) : Result := complete (btnWrite s.target .x b s) s

/-- `SETB.HOME b` (R154). -/
def execSetbHome (b : Bool) (s : State) : Result := complete (btnWrite s.target .home b s) s

/-- `SETB.SHOT b` (R155). -/
def execSetbShot (b : Bool) (s : State) : Result := complete (btnWrite s.target .shot b s) s

/-- `SETB.LS b` (R156). -/
def execSetbLs (b : Bool) (s : State) : Result := complete (btnWrite s.target .ls b s) s

/-- `SETB.RS b` (R157). -/
def execSetbRs (b : Bool) (s : State) : Result := complete (btnWrite s.target .rs b s) s

/-- `SETB.MINUS b` (R158). -/
def execSetbMinus (b : Bool) (s : State) : Result := complete (btnWrite s.target .minus b s) s

/-- `SETB.PLUS b` (R159). -/
def execSetbPlus (b : Bool) (s : State) : Result := complete (btnWrite s.target .plus b s) s

end Sys2Proof.Machine
end

