-- ==== Sys2Proof/Machine/DirectionPad.lean ====
section
/-! DEFINITION. The D-pad family (44_dpad.md): GETDP and SETDP. -/

namespace Sys2Proof.Machine

/-- The D-pad write of record `t` (R171): `NIBWR(14, c)`; it has no range failure. -/
def dpadWrite (t : Nat) (d : Dpad) (s : State) : Except Status State :=
  .ok (s.nibwr t offDpad (dpadCode d))

/-- `GETDP` (R170): the code of the member the low nibble names, `FormatError` when it names none. -/
def execGetdp (s : State) : Result :=
  match dpadName (lowNibble (s.fieldByte s.target offDpad)) with
  | some d => answer (dpadCode d : Int) (s.afterFieldRead s.target)
  | none => raise .formatError (s.afterFieldRead s.target)

/-- `SETDP c` (R171). -/
def execSetdp (d : Dpad) (s : State) : Result := complete (dpadWrite s.target d s) s

end Sys2Proof.Machine
end

