-- ==== Sys2Proof/Machine/Joystick.lean ====
section
/-! DEFINITION. The joystick family (41_joystick.md): GETJ.* and SETJ.*. -/

namespace Sys2Proof.Machine

/-- `JoyRead(off)` of the target record (R100): `LD16LE(off) − 2048`, an exact integer, not validated and not wrapped
(R89, R109(e)). -/
def joyGet (ax : Axis) (s : State) : Result :=
  answer ((s.fieldHalf s.target (axisOffset ax) : Int) - bias) (s.afterFieldRead s.target)

/-- `JoyWrite(off, v)` of record `t` (R100): validate, then store `v + 2048`. -/
def joyWrite (t : Nat) (ax : Axis) (v : Int) (s : State) : Except Status State :=
  if v < joyMin ∨ joyMax < v then .error .rangeError
  else .ok (s.st16le t (axisOffset ax) (v + bias))

/-- `GETJ.LH` (R101). -/
def execGetjLh (s : State) : Result := joyGet .lh s

/-- `GETJ.LV` (R102). -/
def execGetjLv (s : State) : Result := joyGet .lv s

/-- `GETJ.RH` (R103). -/
def execGetjRh (s : State) : Result := joyGet .rh s

/-- `GETJ.RV` (R104). -/
def execGetjRv (s : State) : Result := joyGet .rv s

/-- `SETJ.LH v` (R105). -/
def execSetjLh (v : Int) (s : State) : Result := complete (joyWrite s.target .lh v s) s

/-- `SETJ.LV v` (R106). -/
def execSetjLv (v : Int) (s : State) : Result := complete (joyWrite s.target .lv v s) s

/-- `SETJ.RH v` (R107). -/
def execSetjRh (v : Int) (s : State) : Result := complete (joyWrite s.target .rh v s) s

/-- `SETJ.RV v` (R108). -/
def execSetjRv (v : Int) (s : State) : Result := complete (joyWrite s.target .rv v s) s

end Sys2Proof.Machine
end

