-- ==== Sys2Proof/Machine/Records.lean ====
section
/-! DEFINITION. The whole-record family (45_padding_record.md): ISPAD, SETPAD, ENC and DEC. -/

namespace Sys2Proof.Machine

/-- `setPadding(b)` on record `t` (R181): sixteen times 0xFF, or the record `ACTIVE_RESET`; unconditional. -/
def padWrite (t : Nat) (b : Bool) (s : State) : Except Status State :=
  .ok (s.setRecord t (if b then paddingRecord else activeReset))

/-- `ISPAD` (R180): 1 when all sixteen bytes are 0xFF, else 0; nothing is latched. -/
def execIspad (s : State) : Result := answer ((s.isPadding s.target).toNat : Int) s

/-- `SETPAD b` (R181). -/
def execSetpad (b : Bool) (s : State) : Result := complete (padWrite s.target b s) s

/-- `ENC` (R182): the sixteen bytes of the target record as they stand, byte 0 first. -/
def execEnc (s : State) : Result := sinkWrite (s.recordBytes s.target) s

/-- `DEC` (R183): the next sixteen source bytes, unchecked; a short read leaves the record and the source position free
and answers `FormatError`. -/
def execDec (s : State) : Result :=
  match s.src with
  | none => .refused .noByteSource
  | some sr =>
    if sr.avail < wordBytes then raise .formatError (shortRead s.target sr s)
    else answer 0 ((s.setRecord s.target (sr.next wordBytes)).setSrc (sr.advance wordBytes))

end Sys2Proof.Machine
end

