-- ==== Sys2Proof/Machine/Triggers.lean ====
section
/-! DEFINITION. The trigger family (42_trigger.md): GETT.* and SETT.*. -/

namespace Sys2Proof.Machine

/-- `TrigRead(off)` of the target record (R120). -/
def trigGet (tr : Trigger) (s : State) : Result :=
  answer ((s.fieldByte s.target (triggerOffset tr)).toNat : Int) (s.afterFieldRead s.target)

/-- `TrigWrite(off, p)` of record `t` (R120): validate, then store the raw byte; no clamping (C9). -/
def trigWrite (t : Nat) (tr : Trigger) (p : Int) (s : State) : Except Status State :=
  if p < trigMin ∨ trigMax < p then .error .rangeError
  else .ok (s.st8 t (triggerOffset tr) (BitVec.ofInt 8 p))

/-- `GETT.ZL` (R121). -/
def execGettZl (s : State) : Result := trigGet .zl s

/-- `GETT.ZR` (R122). -/
def execGettZr (s : State) : Result := trigGet .zr s

/-- `SETT.ZL p` (R123). -/
def execSettZl (p : Int) (s : State) : Result := complete (trigWrite s.target .zl p s) s

/-- `SETT.ZR p` (R124). -/
def execSettZr (p : Int) (s : State) : Result := complete (trigWrite s.target .zr p s) s

end Sys2Proof.Machine
end

