-- ==== Sys2Proof/Machine/Container.lean ====
section
/-! DEFINITION. The frame store (46_container.md): CINIT, WNEXT, FINISH, GETW, SER and DESER. -/

namespace Sys2Proof.Machine

/-- One mutator by its own rule, on record `t` (R60, R201 step 4). An error leaves the state as it was (R231). -/
def mutate (t : Nat) (m : Mutator) (s : State) : Except Status State :=
  match m with
  | .setj ax v => joyWrite t ax v s
  | .sett tr p => trigWrite t tr p s
  | .setb bt b => btnWrite t bt b s
  | .setdp d => dpadWrite t d s
  | .setpad b => padWrite t b s

/-- The mutators of a group in order (R201 step 4): the state when the last one is done and no error, or the state when
one failed and its error; those after it are not executed. -/
def mutateAll (t : Nat) : List Mutator → State → State × Option Status
  | [], s => (s, none)
  | m :: ms, s =>
    match mutate t m s with
    | .ok s' => mutateAll t ms s'
    | .error e => (s, some e)

/-- The slot `CUR` after steps 3 and 4 of R201: `ACTIVE_RESET` (as `SETPAD 0`, D16), then the mutators. -/
def writeSlot (ms : List Mutator) (s : State) : State × Option Status :=
  mutateAll s.cur ms (s.setRecord s.cur activeReset)

/-- The bytes `FINISH` stores from record `cur` on: 0xFF up to the end of `FM` (R202). -/
def padFrom (cur : Nat) : List Byte := List.replicate (wordBytes * (nWords - cur)) pad

/-- How many whole records a `DESER` takes from the source before it is done or meets a short one (R205). -/
def wholeRecords (sr : Source) : Nat := min nWords (sr.avail / wordBytes)

/-- The records a `DESER` loads, and the source after them (R205). -/
def loadRecords (sr : Source) (s : State) : State :=
  (s.setRecord 0 (sr.next (wordBytes * wholeRecords sr))).setSrc (sr.advance (wordBytes * wholeRecords sr))

/-- `CINIT` (R200): the reset state of the block (R261). -/
def execCinit (s : State) : Result := answer 0 s.construct

/-- `WNEXT n; m_1 .. m_n` (R201). The group's legality (step 1) has been checked by the decoder (R62, R239). -/
def execWnext (ms : List Mutator) (s : State) : Result :=
  if s.cur = curMax then raise .capacityError s
  else if curMax < s.cur then .fault .outsideFrameMemory
  else
    match writeSlot ms s with
    | (s', none) => answer 0 (s'.setCur (s'.cur + 1))
    | (s', some e) => raise e s'

/-- `FINISH` (R202): records `CUR` .. 65535 become padding; the cursor stays. -/
def execFinish (s : State) : Result := answer 0 (s.setRecord s.cur (padFrom s.cur))

/-- `GETW i` (R203). -/
def execGetw (i : Int) (s : State) : Result :=
  if i < 0 ∨ 65535 < i then raise .indexError s
  else answer 0 (s.setWsel (BitVec.ofInt 16 i))

/-- `SER` (R204): every byte of `FM`, in address order. -/
def execSer (s : State) : Result := sinkWrite (s.bytesAt 0 fileBytes) s

/-- `DESER` (R205): every record from the source in index order, unchecked; the first record with fewer than sixteen
bytes left is left free and answers `FormatError`, the records after it are untouched. -/
def execDeser (s : State) : Result :=
  match s.src with
  | none => .refused .noByteSource
  | some sr =>
    if wholeRecords sr < nWords then
      raise .formatError (shortRead (wholeRecords sr) (sr.advance (wordBytes * wholeRecords sr)) (loadRecords sr s))
    else answer 0 (loadRecords sr s)

end Sys2Proof.Machine
end

