-- ==== Sys2Proof/Machine/Dispatch.lean ====
section
/-! DEFINITION. exec: one arm per constructor of Instr, each one direct call of that instruction's meaning. -/

namespace Sys2Proof.Machine

def exec (i : Instr) (s : State) : Host.Outcome State Fault Refusal :=
  match i with
  | .getjLh => Sys2Proof.Machine.execGetjLh s
  | .getjLv => Sys2Proof.Machine.execGetjLv s
  | .getjRh => Sys2Proof.Machine.execGetjRh s
  | .getjRv => Sys2Proof.Machine.execGetjRv s
  | .setjLh v => Sys2Proof.Machine.execSetjLh v s
  | .setjLv v => Sys2Proof.Machine.execSetjLv v s
  | .setjRh v => Sys2Proof.Machine.execSetjRh v s
  | .setjRv v => Sys2Proof.Machine.execSetjRv v s
  | .gettZl => Sys2Proof.Machine.execGettZl s
  | .gettZr => Sys2Proof.Machine.execGettZr s
  | .settZl v => Sys2Proof.Machine.execSettZl v s
  | .settZr v => Sys2Proof.Machine.execSettZr v s
  | .getbL => Sys2Proof.Machine.execGetbL s
  | .getbR => Sys2Proof.Machine.execGetbR s
  | .getbZl => Sys2Proof.Machine.execGetbZl s
  | .getbZr => Sys2Proof.Machine.execGetbZr s
  | .getbA => Sys2Proof.Machine.execGetbA s
  | .getbB => Sys2Proof.Machine.execGetbB s
  | .getbY => Sys2Proof.Machine.execGetbY s
  | .getbX => Sys2Proof.Machine.execGetbX s
  | .getbHome => Sys2Proof.Machine.execGetbHome s
  | .getbShot => Sys2Proof.Machine.execGetbShot s
  | .getbLs => Sys2Proof.Machine.execGetbLs s
  | .getbRs => Sys2Proof.Machine.execGetbRs s
  | .getbMinus => Sys2Proof.Machine.execGetbMinus s
  | .getbPlus => Sys2Proof.Machine.execGetbPlus s
  | .setbL b => Sys2Proof.Machine.execSetbL b s
  | .setbR b => Sys2Proof.Machine.execSetbR b s
  | .setbZl b => Sys2Proof.Machine.execSetbZl b s
  | .setbZr b => Sys2Proof.Machine.execSetbZr b s
  | .setbA b => Sys2Proof.Machine.execSetbA b s
  | .setbB b => Sys2Proof.Machine.execSetbB b s
  | .setbY b => Sys2Proof.Machine.execSetbY b s
  | .setbX b => Sys2Proof.Machine.execSetbX b s
  | .setbHome b => Sys2Proof.Machine.execSetbHome b s
  | .setbShot b => Sys2Proof.Machine.execSetbShot b s
  | .setbLs b => Sys2Proof.Machine.execSetbLs b s
  | .setbRs b => Sys2Proof.Machine.execSetbRs b s
  | .setbMinus b => Sys2Proof.Machine.execSetbMinus b s
  | .setbPlus b => Sys2Proof.Machine.execSetbPlus b s
  | .getdp => Sys2Proof.Machine.execGetdp s
  | .setdp d => Sys2Proof.Machine.execSetdp d s
  | .ispad => Sys2Proof.Machine.execIspad s
  | .setpad b => Sys2Proof.Machine.execSetpad b s
  | .enc => Sys2Proof.Machine.execEnc s
  | .dec => Sys2Proof.Machine.execDec s
  | .cinit => Sys2Proof.Machine.execCinit s
  | .wnext ms => Sys2Proof.Machine.execWnext ms s
  | .finish => Sys2Proof.Machine.execFinish s
  | .getw v => Sys2Proof.Machine.execGetw v s
  | .ser => Sys2Proof.Machine.execSer s
  | .deser => Sys2Proof.Machine.execDeser s

end Sys2Proof.Machine
end

