-- ==== Sys2Proof/Machine/Fetch.lean ====
section
/-! DEFINITION. Taking the next command from the host's list (R4, R15, R62, R235). -/

namespace Sys2Proof.Machine

/-- Takes the next command: its words leave the host's list before it executes (R41), a legal one is executed, an illegal
one is answered with `IllegalCommand` and changes nothing else (R235). With no command presented the block is idle
(R244; log entry 5). -/
def takeCommand (s : State) : Result :=
  match s.cmds with
  | [] => .next s
  | w :: ws =>
    match decodeCmd w ws with
    | (.ok i, rest) => exec i (s.setCmds rest)
    | (.error _, rest) => raise .illegalCommand (s.setCmds rest)

end Sys2Proof.Machine
end

