-- ==== Sys2Proof/Machine/Step.lean ====
section
/-! DEFINITION. One step of the machine (R4), and how an instruction is placed where the step takes its next one. -/

namespace Sys2Proof.Machine

/-- One step: the next command of the host's list, taken whole, executed and answered (R4). -/
def step (s : State) : Host.Outcome State Fault Refusal := takeCommand s

/-- The state in which the host presents, as its very next command, the instruction whose bits are `w`. -/
def State.withFetchWord (s : State) (nbits w : Nat) : State := s.setCmds (tableWords nbits w ++ s.cmds)

end Sys2Proof.Machine
end

