-- ==== Sys2Proof/Machine/Assembler.lean ====
section
/-! DEFINITION. The assembler syntax and the pseudo-instructions (R65 to R67): host-side text, no part of the block's state or step. -/

namespace Sys2Proof.Machine

/-! ## Pseudo-instructions -/

/-- `ITER` (R66, R206): `getw 0`, the commands on record 0, `getw 1`, .., `getw 65535`, the commands on record 65535. -/
def expandIter (body : Nat → List Instr) : List Instr :=
  (List.range nWords).flatMap fun (i : Nat) => .getw (Int.ofNat i) :: body i

/-- The getters whose values `SUMMARY` lists (R67). -/
def summaryFields : List Instr :=
  [.getjLh, .getjLv, .getjRh, .getjRv, .gettZl, .gettZr] ++
  [.getbL, .getbR, .getbZl, .getbZr, .getbA, .getbB, .getbY, .getbX] ++
  [.getbHome, .getbShot, .getbLs, .getbRs, .getbMinus, .getbPlus, .getdp]

/-- `SUMMARY` (R67) on a record for which `ispad` answers 1 or not: `ispad`, then on a record that is no padding record
the field getters. -/
def expandSummary (padded : Bool) : List Instr :=
  if padded then [.ispad] else .ispad :: summaryFields

/-! ## Assembler syntax -/

/-- A token of an assembler text (R65): a word, a brace, or what separates commands. -/
inductive Token where
  | word (cs : List Char)
  | openGroup
  | closeGroup
  | separator
  deriving DecidableEq, Repr

/-- A word that has ended, if it is not empty, before the tokens that follow. -/
def flushWord (cs : List Char) (ts : List Token) : List Token :=
  if cs = [] then ts else .word cs :: ts

/-- The tokens of a text (R65, C13): `#` starts a comment to the end of the line; a line end and `;` separate commands;
the characters 0x7B and 0x7D are the two braces. `word` holds the letters of the word being read, `comment` says whether
a comment is being skipped. -/
def tokens (word : List Char) (comment : Bool) : List Char → List Token
  | [] => flushWord word []
  | c :: cs =>
    if c = '\n' then flushWord word (.separator :: tokens [] false cs)
    else if comment then tokens word true cs
    else if c = '#' then flushWord word (tokens [] true cs)
    else if c = ';' then flushWord word (.separator :: tokens [] false cs)
    else if c = Char.ofNat 0x7B then flushWord word (.openGroup :: tokens [] false cs)
    else if c = Char.ofNat 0x7D then flushWord word (.closeGroup :: tokens [] false cs)
    else if c.isWhitespace then flushWord word (tokens [] false cs)
    else tokens (word ++ [c.toLower]) false cs

/-- A digit's value in the given base; letters are small by now. -/
def digitValue (base : Nat) (c : Char) : Option Nat :=
  let v := if c.isDigit then c.toNat - 48 else if 'a' ≤ c ∧ c ≤ 'f' then c.toNat - 87 else base
  if v < base then some v else none

/-- The number a string of digits spells, most significant first, after the value read so far. -/
def digitsValue (base : Nat) : List Char → Nat → Option Nat
  | [], n => some n
  | c :: cs, n =>
    match digitValue base c with
    | some v => digitsValue base cs (base * n + v)
    | none => none

/-- An unsigned number: decimal, or hexadecimal after `0x` (R65). -/
def naturalText : List Char → Option Nat
  | [] => none
  | '0' :: 'x' :: c :: cs => digitsValue 16 (c :: cs) 0
  | cs => digitsValue 10 cs 0

/-- A signed number (R65) that a format `S` word can carry (R61). -/
def integerText (cs : List Char) : Option Int :=
  let v : Option Int :=
    match cs with
    | '-' :: ds => (naturalText ds).map fun n => -(n : Int)
    | ds => (naturalText ds).map fun n => (n : Int)
  match v with
  | some i => if fitsS i then some i else none
  | none => none

/-- A truth value: `0`, `1`, `false` or `true` (R65). -/
def boolText (cs : List Char) : Option Bool :=
  if cs = "0".toList ∨ cs = "false".toList then some false
  else if cs = "1".toList ∨ cs = "true".toList then some true
  else none

/-- The names of the D-pad members in small letters (R53). -/
def dpadNames : List (String × Dpad) :=
  [("not_pressed", .notPressed), ("up", .up), ("up_right", .upRight), ("right", .right), ("down_right", .downRight)] ++
  [("down", .down), ("down_left", .downLeft), ("left", .left), ("up_left", .upLeft), ("padding", .padding)]

/-- A D-pad member by its name or its number (R65). -/
def dpadText (cs : List Char) : Option Dpad :=
  match dpadNames.find? (fun r => decide (r.1.toList = cs)) with
  | some r => some r.2
  | none =>
    match naturalText cs with
    | some n => dpadName n
    | none => none

/-- A command without operand (format `Z`). -/
def asmZ (i : Instr) : List (List Char) → Option Instr
  | [] => some i
  | _ => none

/-- A command with one operand, read by `f` (formats `S`, `B`, `N`). -/
def asmOperand {α : Type} (f : List Char → Option α) (mk : α → Instr) : List (List Char) → Option Instr
  | [cs] => (f cs).map mk
  | _ => none

/-- The mnemonics of R59 in small letters, each with how its operand is read (R65). `wnext` has a syntax of its own. -/
def mnemonics : List (String × (List (List Char) → Option Instr)) :=
  [("getj.lh", asmZ .getjLh), ("getj.lv", asmZ .getjLv)] ++
  [("getj.rh", asmZ .getjRh), ("getj.rv", asmZ .getjRv)] ++
  [("setj.lh", asmOperand integerText .setjLh), ("setj.lv", asmOperand integerText .setjLv)] ++
  [("setj.rh", asmOperand integerText .setjRh), ("setj.rv", asmOperand integerText .setjRv)] ++
  [("gett.zl", asmZ .gettZl), ("gett.zr", asmZ .gettZr)] ++
  [("sett.zl", asmOperand integerText .settZl), ("sett.zr", asmOperand integerText .settZr)] ++
  [("getb.l", asmZ .getbL), ("getb.r", asmZ .getbR)] ++
  [("getb.zl", asmZ .getbZl), ("getb.zr", asmZ .getbZr)] ++
  [("getb.a", asmZ .getbA), ("getb.b", asmZ .getbB)] ++
  [("getb.y", asmZ .getbY), ("getb.x", asmZ .getbX)] ++
  [("getb.home", asmZ .getbHome), ("getb.shot", asmZ .getbShot)] ++
  [("getb.ls", asmZ .getbLs), ("getb.rs", asmZ .getbRs)] ++
  [("getb.minus", asmZ .getbMinus), ("getb.plus", asmZ .getbPlus)] ++
  [("setb.l", asmOperand boolText .setbL), ("setb.r", asmOperand boolText .setbR)] ++
  [("setb.zl", asmOperand boolText .setbZl), ("setb.zr", asmOperand boolText .setbZr)] ++
  [("setb.a", asmOperand boolText .setbA), ("setb.b", asmOperand boolText .setbB)] ++
  [("setb.y", asmOperand boolText .setbY), ("setb.x", asmOperand boolText .setbX)] ++
  [("setb.home", asmOperand boolText .setbHome), ("setb.shot", asmOperand boolText .setbShot)] ++
  [("setb.ls", asmOperand boolText .setbLs), ("setb.rs", asmOperand boolText .setbRs)] ++
  [("setb.minus", asmOperand boolText .setbMinus), ("setb.plus", asmOperand boolText .setbPlus)] ++
  [("getdp", asmZ .getdp), ("setdp", asmOperand dpadText .setdp)] ++
  [("ispad", asmZ .ispad), ("setpad", asmOperand boolText .setpad)] ++
  [("enc", asmZ .enc), ("dec", asmZ .dec)] ++
  [("cinit", asmZ .cinit), ("finish", asmZ .finish)] ++
  [("getw", asmOperand integerText .getw), ("ser", asmZ .ser)] ++
  [("deser", asmZ .deser)]

/-- One command of one word (R65): its mnemonic in either case, then at most one operand. -/
def asmCommand : List (List Char) → Option Instr
  | [] => none
  | m :: args =>
    match mnemonics.find? (fun r => decide (r.1.toList = m)) with
    | some r => r.2 args
    | none => none

/-- A member of a group (R60, R65). -/
def asmMember (ws : List (List Char)) : Option Mutator :=
  match asmCommand ws with
  | some i => toMutator i
  | none => none

/-- What the assembler has read so far (R65): the words of the command being read, the members of the group being read
if there is one, and the commands read. `none` when the text is no program. DESIGN CHOICE (log entry 17): the brace that
closes a group ends its command, so another command may follow it on the same line; the brace that opens a group stands on
the line of its `wnext`; a separator with no command before it is skipped. -/
def asmGo (ws : List (List Char)) (group : Option (List Mutator)) (done : List Instr) : List Token → Option (List Instr)
  | [] =>
    match group with
    | some _ => none
    | none => if ws = [] then some done else (asmCommand ws).map fun i => done ++ [i]
  | .word cs :: ts => asmGo (ws ++ [cs]) group done ts
  | .separator :: ts =>
    if ws = [] then asmGo [] group done ts
    else
      match group with
      | some ms =>
        match asmMember ws with
        | some m => asmGo [] (some (ms ++ [m])) done ts
        | none => none
      | none =>
        match asmCommand ws with
        | some i => asmGo [] none (done ++ [i]) ts
        | none => none
  | .openGroup :: ts =>
    match group with
    | some _ => none
    | none => if ws = ["wnext".toList] then asmGo [] (some []) done ts else none
  | .closeGroup :: ts =>
    match group with
    | none => none
    | some ms =>
      if ws = [] then asmGo [] none (done ++ [.wnext ms]) ts
      else
        match asmMember ws with
        | some m => asmGo [] none (done ++ [.wnext (ms ++ [m])]) ts
        | none => none

/-- The commands a text spells (R65), `none` when it spells no list of commands that can be encoded. -/
def assemble (text : String) : Option (List Instr) :=
  match asmGo [] none [] (tokens [] false text.toList) with
  | some is => if is.all Instr.wellFormed then some is else none
  | none => none

end Sys2Proof.Machine
end

