-- ==== Sys2Proof/Safety.lean ====
section
/-! DEFINITION. The terms claims use: the invariant of the state, what a claim about a frame says, the host's stream duties, the spec's own condition for an illegal encoding, and the spec's loops over records. -/

namespace Sys2Proof.Machine

/-! ## The invariant -/

/-- The source position lies inside the source (R16). -/
abbrev State.sourceInside (s : State) : Prop :=
  ∀ sr ∈ s.src, sr.pos ≤ sr.bytes.length

/-- What every reachable state keeps (R16, R22): the frame memory is canonical, `0 ≤ CUR ≤ 65536`, and the source
position lies inside the source. (`0 ≤ WSEL ≤ 65535` and `0 ≤ FM[a] ≤ 255` hold by their types.) -/
abbrev State.Inv (s : State) : Prop :=
  Memory.wf s.params.initWord s.fm ∧ s.cur ≤ 65536 ∧ s.sourceInside

/-- The host has done its duty by the streams (R263), and the sink never fails (R17, U6). -/
abbrev State.StreamsReady (s : State) : Prop :=
  s.src.isSome = true ∧ s.snk.isSome = true ∧ s.params.sinkFails = false

/-! ## Frames -/

/-- Every piece of state that the spec names, but the frame memory and the responses, is unchanged. Nothing is said of the
model's own draw counter. -/
abbrev SameSpecControl (s t : State) : Prop :=
  t.cur = s.cur ∧ t.wsel = s.wsel ∧ t.src = s.src ∧ t.snk = s.snk ∧ t.cmds = s.cmds ∧ t.params = s.params

/-- Every piece of state but the frame memory and the responses is unchanged, the model's own draw counter included. -/
abbrev SameControl (s t : State) : Prop :=
  t.cur = s.cur ∧ t.wsel = s.wsel ∧ t.src = s.src ∧ t.snk = s.snk ∧ t.cmds = s.cmds ∧ t.params = s.params ∧
    t.draws = s.draws

/-- Every byte outside the `n` bytes from address `a` on reads as before. -/
abbrev SameOutside (s t : State) (a n : Nat) : Prop :=
  ∀ x, x < a ∨ a + n ≤ x → t.byteAt x = s.byteAt x

/-- Every byte reads as before. -/
abbrev SameMemory (s t : State) : Prop := ∀ x, t.byteAt x = s.byteAt x

/-- Exactly one response was given, and it is `(st, v)` (R64). -/
abbrev Answered (s t : State) (st : Status) (v : Int) : Prop := t.resps = s.resps ++ [⟨st, v⟩]

/-- A list of commands executed one after another; it stops at the first fault or refusal. -/
def execAll : List Instr → State → Result
  | [], s => .next s
  | i :: is, s =>
    match exec i s with
    | .next t => execAll is t
    | .fault r => .fault r
    | .refused r => .refused r

/-- A mutator whose operand is inside its field's domain (R100, R120): `SETJ.*` −2048..2047, `SETT.*` 0..255, every
other always. -/
def mutatorInDomain : Mutator → Bool
  | .setj _ v => decide (-2048 ≤ v ∧ v ≤ 2047)
  | .sett _ p => decide (0 ≤ p ∧ p ≤ 255)
  | .setb _ _ => true
  | .setdp _ => true
  | .setpad _ => true

/-- The codec commands: those of files 41 to 45 (00_scope.md section 7). -/
def isCodec : Instr → Bool
  | .cinit => false
  | .wnext _ => false
  | .finish => false
  | .getw _ => false
  | .ser => false
  | .deser => false
  | _ => true

/-! ## Illegal encodings, as R62 and R63 word them -/

/-- `OP` and `IMM` of a command word as numbers (R57). -/
def opNat (w : Word) : Nat := w.toNat % 256
/-- `IMM` as a number (R57). -/
def immNat (w : Word) : Nat := w.toNat / 256

/-- The reserved opcode values, range by range (R63 item 1). -/
abbrev reservedOp (op : Nat) : Prop :=
  op ≤ 0x0F ∨ (0x14 ≤ op ∧ op ≤ 0x1F) ∨ (0x24 ≤ op ∧ op ≤ 0x2F) ∨ (0x32 ≤ op ∧ op ≤ 0x3F) ∨
  (0x42 ≤ op ∧ op ≤ 0x4F) ∨ op = 0x5E ∨ op = 0x5F ∨ op = 0x6E ∨ op = 0x6F ∨ (0x72 ≤ op ∧ op ≤ 0x7F) ∨
  (0x84 ≤ op ∧ op ≤ 0xBF) ∨ 0xC6 ≤ op

/-- The opcodes of format `Z` (R58, R59). -/
abbrev zeroFormat (op : Nat) : Prop :=
  (0x10 ≤ op ∧ op ≤ 0x13) ∨ op = 0x30 ∨ op = 0x31 ∨ (0x50 ≤ op ∧ op ≤ 0x5D) ∨ op = 0x70 ∨ op = 0x80 ∨ op = 0x82 ∨
  op = 0x83 ∨ op = 0xC0 ∨ op = 0xC2 ∨ op = 0xC4 ∨ op = 0xC5

/-- The opcodes of format `B` (R58, R59). -/
abbrev boolFormat (op : Nat) : Prop := (0x60 ≤ op ∧ op ≤ 0x6D) ∨ op = 0x81

/-- The opcodes of the mutator class (R60). -/
abbrev mutatorOp (op : Nat) : Prop :=
  (0x20 ≤ op ∧ op ≤ 0x23) ∨ op = 0x40 ∨ op = 0x41 ∨ (0x60 ≤ op ∧ op ≤ 0x6D) ∨ op = 0x71 ∨ op = 0x81

/-- A word that is illegal by R63 items 1 to 4. -/
abbrev illegalWord (w : Word) : Prop :=
  reservedOp (opNat w) ∨ (zeroFormat (opNat w) ∧ immNat w ≠ 0) ∨ (boolFormat (opNat w) ∧ 2 ≤ immNat w) ∨
  (opNat w = 0x71 ∧ (16 ≤ immNat w ∨ (9 ≤ immNat w ∧ immNat w ≤ 14)))

/-- A `WNEXT` header `w`, with the host's words `ws` after it, whose group breaks R62 (R63 item 5). -/
abbrev illegalGroup (w : Word) (ws : List Word) : Prop :=
  opNat w = 0xC1 ∧
    (65536 ≤ immNat w ∨ ws.length < immNat w ∨ ∃ m ∈ ws.take (immNat w), ¬mutatorOp (opNat m) ∨ illegalWord m)

/-- An illegal encoding (R63). -/
abbrev illegalEncoding (w : Word) (ws : List Word) : Prop := illegalWord w ∨ illegalGroup w ws

/-- The host's words after the command `w` and its group: where the decoder resumes (R62). -/
def resumeAfter (w : Word) (ws : List Word) : List Word :=
  if opNat w = 0xC1 ∧ immNat w < 65536 then ws.drop (immNat w) else ws

/-! ## The encodings that the instruction rules state -/

/-- `sext_24` (00_scope.md section 6). -/
def sext24 (u : Nat) : Int := if u < 8388608 then (u : Int) else (u : Int) - 16777216

/-- The command word `c` spells the command `i`, whatever the host's list holds after it. -/
abbrev WordSpells (c : Nat) (i : Instr) : Prop := ∀ ws : List Word, decodeCmd (BitVec.ofNat 32 c) ws = (.ok i, ws)

/-- Opcode `op` in format `S`: `C = (IMM << 8) | OP` spells the command with operand `sext_24(IMM)`, for every `IMM`. -/
abbrev SignedFormat (op : Nat) (f : Int → Instr) : Prop :=
  ∀ imm : Nat, imm < 16777216 → WordSpells (256 * imm + op) (f (sext24 imm))

/-- Opcode `op` in format `B`: `IMM = 0` and `IMM = 1` spell the two commands, `IMM[23:1] ≠ 0` is illegal. -/
abbrev BoolFormat (op : Nat) (f : Bool → Instr) : Prop :=
  WordSpells op (f false) ∧ WordSpells (256 + op) (f true) ∧
    ∀ imm : Nat, 2 ≤ imm → imm < 16777216 → ∀ ws, ∃ e, (decodeCmd (BitVec.ofNat 32 (256 * imm + op)) ws).1 = .error e

/-! ## The spec's loops over records -/

/-- `ITER` (R66) from record `i` on, `n` records long: `WSEL` becomes `i`, `(OK, 0)` is answered, and the commands on
record `i` run from there; a command that stops ends it. -/
def iterLoop (body : Nat → List Instr) : Nat → Nat → State → Result
  | 0, _, s => .next s
  | n + 1, i, s =>
    match execAll (body i) ((s.setWsel (BitVec.ofNat 16 i)).respond .ok 0) with
    | .next t => iterLoop body n (i + 1) t
    | .fault r => .fault r
    | .refused r => .refused r

/-- The loop of R202 from record `i` on, `n` records long. -/
def finishLoop : Nat → Nat → State → State
  | 0, _, s => s
  | n + 1, i, s => finishLoop n (i + 1) (s.setRecord i paddingRecord)

/-- The loop of R205 from record `i` on, `n` records long. -/
def deserLoop : Nat → Nat → Source → State → Result
  | 0, _, sr, s => answer 0 (s.setSrc sr)
  | n + 1, i, sr, s =>
    if sr.avail < 16 then raise .formatError (shortRead i sr s)
    else deserLoop n (i + 1) (sr.advance 16) (s.setRecord i (sr.next 16))

end Sys2Proof.Machine
end

