-- ==== Sys2Proof/Certificates/Slice0/Obligations.lean ====
section
/-! DEFINITION. The statements for the provers, from the spec's numbered rules. -/

open Sys2Proof Sys2Proof.Machine

/-- When the host's next words decode to an instruction i (with its group, for WNEXT), step at that state is exec of i at
that state with the command's words removed from the host's list, and nothing else is added around exec.
(30_encoding.md R57, 30_encoding.md R62, 00_scope.md R4, 20_memory.md R41.) -/
def Obligations.StepRunsDecodedCommand : Prop :=
  ∀ (s : State) (w : Word) (ws rest : List Word) (i : Instr), s.cmds = w :: ws → decodeCmd w ws = (.ok i, rest) →
    step s = exec i (s.setCmds rest)

/-- For every word w and following words ws that are an illegal encoding by R63 (illegalEncoding, worded from R63's five
items), a step that finds them next in the host's list gives a next state: only the command's words have left the
host's list (resumeAfter, worded from R62: after a header with IMM[23:16] not 0 the next word; after a legal header
with an illegal group the word after its 1 + n words, or the end of the list if fewer remain) and only the response
(IllegalCommand, 0) is added. For a header whose group is cut short the statement rests on log entry 14 (DEDUCED,
unsafe): the model takes the list to hold every word the host will ever present, so it answers at once and does not
wait for the missing words. (60_exceptions.md R235, 30_encoding.md R63, 30_encoding.md R62.) -/
def Obligations.IllegalCommandAnswered : Prop :=
  ∀ (s : State) (w : Word) (ws : List Word), s.cmds = w :: ws → illegalEncoding w ws →
    step s = .next ((s.setCmds (resumeAfter w ws)).respond .illegalCommand 0)

/-- For every word w and following words ws, the decoder answers an error if and only if w with ws is illegal by R63: a
reserved opcode, a format Z word with IMM not 0, a format B word with IMM[23:1] not 0, a format N word with IMM[23:4]
not 0 or a code 9..14, or a WNEXT group that breaks R62. No illegal encoding executes; the answer to it is stated by
IllegalCommandAnswered. (30_encoding.md R58, 30_encoding.md R62, 30_encoding.md R63.) -/
def Obligations.DecoderRefusesExactlyIllegal : Prop :=
  ∀ (w : Word) (ws : List Word), (∃ e, (decodeCmd w ws).1 = .error e) ↔ illegalEncoding w ws

/-- When the host's list is empty, step answers the same state. That an idle step exists at all is the model's choice (log
entry 5, DESIGN CHOICE); R244 says that the block is idle between commands and loses nothing. (60_exceptions.md R244,
70_reset_and_hazards.md R273, 10_state.md R15.) -/
def Obligations.IdleWithoutCommand : Prop :=
  ∀ s : State, s.cmds = [] → step s = .next s

/-- Nine words written out in 95_test_vectors.md section 9, and the group of section 8, decode to the commands the spec
says they encode. (30_encoding.md R57, 30_encoding.md R59, 95_test_vectors.md section 9.) -/
def Obligations.DecodeSampleWords : Prop :=
  decodeCmd 0x00000010 [] = (.ok .getjLh, []) ∧ decodeCmd 0xFFFF9C20 [] = (.ok (.setjLh (-100)), []) ∧
  decodeCmd 0x0000FF40 [] = (.ok (.settZl 255), []) ∧ decodeCmd 0x0000005D [] = (.ok .getbPlus, []) ∧
  decodeCmd 0x00000164 [] = (.ok (.setbA true), []) ∧ decodeCmd 0x00000371 [] = (.ok (.setdp .right), []) ∧
  decodeCmd 0x00000181 [] = (.ok (.setpad true), []) ∧ decodeCmd 0xFFFFFFC3 [] = (.ok (.getw (-1)), []) ∧
  decodeCmd 0x000000C5 [] = (.ok .deser, []) ∧
  decodeCmd 0x000002C1 [0x00006420, 0x00000164, 0x000000C2] =
    (.ok (.wnext [.setj .lh 100, .setb .a true]), [0x000000C2])

/-- For every well-formed instruction i, with every operand at every value its encoding admits and every legal WNEXT
group, the words encode i followed by any words rest decode to i and leave exactly rest. (30_encoding.md R57,
30_encoding.md R58, 30_encoding.md R59, 30_encoding.md R60, 30_encoding.md R61, 30_encoding.md R62.) -/
def Obligations.DecodeEncodeRoundTrip : Prop :=
  ∀ (i : Instr) (rest : List Word), i.wellFormed = true →
    ∃ w ws, encode i ++ rest = w :: ws ∧ decodeCmd w ws = (.ok i, rest)

/-- Whatever words the decoder accepts, the command it answers is well formed and encodes to exactly the words taken: no
two encodings spell one command and no bit of an accepted word is ignored. (30_encoding.md R57, 30_encoding.md R58,
30_encoding.md R59, 30_encoding.md R61, 30_encoding.md R62.) -/
def Obligations.EncodeDecodeRoundTrip : Prop :=
  ∀ (w : Word) (ws rest : List Word) (i : Instr), decodeCmd w ws = (.ok i, rest) →
    i.wellFormed = true ∧ encode i ++ rest = w :: ws

/-- For every 32-bit instruction word that decodes (decodeTableWord 32), a step of the state with that word placed first
in the host's list is exec of the decoded instruction at the original state: the placement changes nothing else. The
placement itself (withFetchWord, tableWords) is the model's choice, log entry 1 (DESIGN CHOICE): the spec's block
fetches nothing (R15), and the rules cited give only what the word spells (R57, R62) and that the host presents it. A
WNEXT group with members is longer than 32 bits and is left to StepRunsDecodedCommand. (30_encoding.md R57,
30_encoding.md R62, 10_state.md R15.) -/
def Obligations.PlacedInstructionRunsNext : Prop :=
  ∀ (s : State) (w : Nat) (i : Instr), decodeTableWord 32 w = some i →
    step (s.withFetchWord 32 w) = exec i s

/-- In the state after reset byte x of frame memory is byte x mod 16 of ACTIVE_RESET for every x below 1048576, CUR is 0
and WSEL is 0 (R260), and the parameters are INIT_WORD = ACTIVE_CENTRED, PADDED_READ = ALGORITHMIC, SINK_FAILS =
false. The three values are the defaults of R3; that State holds the parameters and that the reset state has these
values is the model's choice, log entry 3 (DESIGN CHOICE, unsafe), and the memory clause rests on the first of them.
(That the streams are attached and empty there is the model's choice, log entry 4, and is not stated here.)
(70_reset_and_hazards.md R260, 00_scope.md R3.) -/
def Obligations.ResetState : Prop :=
  (∀ x, x < 1048576 → State.reset.byteAt x =
      ([0x00, 0x08, 0x00, 0x08, 0x00, 0x08, 0x00, 0x08, 0, 0, 0, 0, 0, 0, 0, 0x02] : List Byte).getD (x % 16) 0) ∧
    State.reset.cur = 0 ∧ State.reset.wsel = 0 ∧ State.reset.params = ⟨.activeCentred, .algorithmic, false⟩

/-- At reset the frame memory is in its canonical form, CUR is at most 65536 and the source position is inside the source.
(10_state.md R21, 10_state.md R22, 10_state.md R16.) -/
def Obligations.InvariantAtReset : Prop :=
  State.reset.Inv

/-- For every state s that meets the invariant (frame memory canonical: addresses strictly rising, below 1048576, no entry
equal to its reset contents; CUR at most 65536; source position inside the source), if step answers a next state, that
state meets it too: after every command, every error, every short read and every illegal encoding. (10_state.md R22,
10_state.md R13, 10_state.md R16, 60_exceptions.md R237.) -/
def Obligations.InvariantKeptByStep : Prop :=
  ∀ s t : State, s.Inv → step s = .next t → t.Inv

/-- A step that takes a command and answers a next state adds exactly one response, after the earlier ones; its value is 0
unless its status is OK, and always lies in -2048..63487, so that the signed 32-bit value of R64 holds it without
loss. (30_encoding.md R64, 60_exceptions.md R230, 60_exceptions.md R236, 00_scope.md R4, 40_lsu.md R89.) -/
def Obligations.OneResponsePerCommand : Prop :=
  ∀ s t : State, s.cmds ≠ [] → step s = .next t →
    ∃ r : Response, t.resps = s.resps ++ [r] ∧ (r.status ≠ .ok → r.value = 0) ∧ -2048 ≤ r.value ∧ r.value ≤ 63487

/-- For every response whose value fits a signed 32-bit integer, bits 31:0 of the packed response are the value in two's
complement, bits 34:32 the status code, which is 0 for OK, 1 for RangeError, 2 for FormatError, 3 for CapacityError, 4
for IndexError and 5 for IllegalCommand, and bits 63:35 are 0. (30_encoding.md R64, 92_eei_decisions.md D7.) -/
def Obligations.ResponsePacking : Prop :=
  ∀ r : Response, -2147483648 ≤ r.value → r.value ≤ 2147483647 →
    ((r.pack.extractLsb' 0 32).toInt = r.value) ∧ (r.pack.toNat / 2 ^ 32 = (statusCode r.status).toNat) ∧
    (statusCode r.status).toNat ≤ 5 ∧
    (r.pack.toNat / 2 ^ 32 =
      match r.status with
      | .ok => 0
      | .rangeError => 1
      | .formatError => 2
      | .capacityError => 3
      | .indexError => 4
      | .illegalCommand => 5)

/-- For every state, a step that answers a next state leaves INIT_WORD, PADDED_READ and SINK_FAILS as they were.
(00_scope.md R3.) -/
def Obligations.ParametersNeverChange : Prop :=
  ∀ s t : State, step s = .next t → t.params = s.params

/-- For every instruction and state: if exec answers a next state, then CUR is unchanged, or the instruction is a WNEXT
that answered OK and CUR is one higher, or it is CINIT and CUR is 0. (10_state.md R13, 90_conflicts.md C8.) -/
def Obligations.CursorWrittenOnlyByWnextAndCinit : Prop :=
  ∀ (i : Instr) (s t : State), exec i s = .next t →
    t.cur = s.cur ∨ (t.cur = s.cur + 1 ∧ (∃ ms, i = .wnext ms) ∧ Answered s t .ok 0) ∨ (t.cur = 0 ∧ i = .cinit)

/-- For every instruction and state: if exec answers a next state, then WSEL is unchanged, or the instruction is GETW i
with 0 <= i <= 65535 and WSEL is i, or it is CINIT and WSEL is 0. (10_state.md R14.) -/
def Obligations.WordSelectWrittenOnlyByGetwAndCinit : Prop :=
  ∀ (i : Instr) (s t : State), exec i s = .next t →
    t.wsel = s.wsel ∨ (∃ j : Int, i = .getw j ∧ 0 ≤ j ∧ j ≤ 65535 ∧ (t.wsel.toNat : Int) = j) ∨ (t.wsel = 0 ∧ i = .cinit)

/-- For every codec command issued directly and every state: if exec answers a next state, every byte outside the 16 bytes
of record WSEL reads as before, CUR, WSEL, the host's list and the parameters are unchanged, and only DEC changes the
source, only ENC the sink. (10_state.md R12, 40_lsu.md R88, 20_memory.md R33, 20_memory.md R38.) -/
def Obligations.CodecChangesOnlyTargetRecord : Prop :=
  ∀ (i : Instr) (s t : State), isCodec i = true → exec i s = .next t →
    SameOutside s t (byteAddr s.target 0) 16 ∧ t.cur = s.cur ∧ t.wsel = s.wsel ∧ t.cmds = s.cmds ∧ t.params = s.params ∧
      (i ≠ .dec → t.src = s.src) ∧ (i ≠ .enc → t.snk = s.snk)

/-- For every state that meets the invariant, step answers no fault: no command addresses a byte outside the frame memory.
(40_lsu.md R88, 10_state.md R22, 93_implementation_defined.md U10.) -/
def Obligations.NoFaultInInvariantStates : Prop :=
  ∀ (s : State) (r : Fault), s.Inv → step s ≠ .fault r

/-- For every state, if step is refused then the host has attached no source and the refusal says so, or no sink and the
refusal says so, or SINK_FAILS is true and the refusal says so. (70_reset_and_hazards.md R263, 10_state.md R17,
93_implementation_defined.md U6, 93_implementation_defined.md U12.) -/
def Obligations.RefusalOnlyForStreams : Prop :=
  ∀ (s : State) (r : Refusal), step s = .refused r →
    (r = .noByteSource ∧ s.src = none) ∨ (r = .noByteSink ∧ s.snk = none) ∨ (r = .sinkMayFail ∧ s.params.sinkFails = true)

/-- For every instruction and every state that meets the invariant and whose streams are attached with an infallible sink,
exec answers a next state that again meets the invariant with its streams attached, with exactly one more response.
(70_reset_and_hazards.md R272, 10_state.md R22, 60_exceptions.md R236, 93_implementation_defined.md U10.) -/
def Obligations.EveryCommandAnswered : Prop :=
  ∀ (i : Instr) (s : State), s.Inv → s.StreamsReady →
    ∃ (t : State) (r : Response), exec i s = .next t ∧ t.resps = s.resps ++ [r] ∧ t.Inv ∧ t.StreamsReady

/-- With no byte source attached DEC and DESER are refused; with no byte sink attached (and SINK_FAILS false) ENC and SER
are refused; with SINK_FAILS true ENC and SER are refused, under the name sinkMayFail whether or not a sink is
attached. That the last refusal has this name also with no sink attached is the model's choice, log entry 11 (DESIGN
CHOICE): the spec orders no two refusals. (70_reset_and_hazards.md R263, 92_eei_decisions.md D23, 92_eei_decisions.md
D13, 10_state.md R17.) -/
def Obligations.StreamCommandsRefusedWithoutStream : Prop :=
  ∀ s : State,
    (s.src = none → exec .dec s = .refused .noByteSource ∧ exec .deser s = .refused .noByteSource) ∧
    (s.params.sinkFails = false → s.snk = none →
      exec .enc s = .refused .noByteSink ∧ exec .ser s = .refused .noByteSink) ∧
    (s.params.sinkFails = true → exec .enc s = .refused .sinkMayFail ∧ exec .ser s = .refused .sinkMayFail)

/-- For every record t and k <= 14: LD16LE(k) is W[k] + 256 W[k+1]; after ST16LE(k, u), for every integer u, W[k] is u mod
256, W[k+1] is (u div 256) mod 256, every other byte and everything else is as before, and LD16LE(k) answers u mod
65536, which is u when 0 <= u <= 65535. (R82, R83.) -/
def Obligations.LittleEndianHalfWriteThenRead : Prop :=
  ∀ (s : State) (t k : Nat) (u : Int), k ≤ 14 →
    (s.ld16le t k = (s.byteAt (byteAddr t k)).toNat + 256 * (s.byteAt (byteAddr t (k + 1))).toNat) ∧
    (((s.st16le t k u).byteAt (byteAddr t k)).toNat : Int) = u % 256 ∧
    (((s.st16le t k u).byteAt (byteAddr t (k + 1))).toNat : Int) = u / 256 % 256 ∧
    SameOutside s (s.st16le t k u) (byteAddr t k) 2 ∧ SameControl s (s.st16le t k u) ∧
    (s.st16le t k u).resps = s.resps ∧
    (((s.st16le t k u).ld16le t k : Nat) : Int) = u % 65536

/-- For every record t and k <= 15: LD8(k) is the byte W[k], 0..255; after ST8(k, b) W[k] is b, every other byte and
everything else is as before, and LD8(k) answers b. (R80, R81.) -/
def Obligations.ByteWriteThenRead : Prop :=
  ∀ (s : State) (t k : Nat) (b : Byte), k ≤ 15 →
    s.ld8 t k = s.byteAt (byteAddr t k) ∧ (s.ld8 t k).toNat ≤ 255 ∧
    (s.st8 t k b).byteAt (byteAddr t k) = b ∧ (s.st8 t k b).ld8 t k = b ∧
    SameOutside s (s.st8 t k b) (byteAddr t k) 1 ∧ SameControl s (s.st8 t k b) ∧ (s.st8 t k b).resps = s.resps

/-- For every record t, k <= 15 and one-bit mask 2^j: BTEST is bit j of W[k]; after BWRITE(k, 2^j, b), bit j of W[k] is b,
every other bit of it is as before, every other byte and everything else is as before, and BTEST answers b. (R84,
R85.) -/
def Obligations.MaskedBitWriteChangesOneBit : Prop :=
  ∀ (s : State) (t k : Nat) (j : Fin 8) (b : Bool), k ≤ 15 →
    (s.btest t k (BitVec.twoPow 8 j) = (s.byteAt (byteAddr t k)).getLsbD j) ∧
    (s.bwrite t k (BitVec.twoPow 8 j) b).btest t k (BitVec.twoPow 8 j) = b ∧
    (∀ n : Nat, ((s.bwrite t k (BitVec.twoPow 8 j) b).byteAt (byteAddr t k)).getLsbD n =
      if n = j then b else (s.byteAt (byteAddr t k)).getLsbD n) ∧
    SameOutside s (s.bwrite t k (BitVec.twoPow 8 j) b) (byteAddr t k) 1 ∧
    SameControl s (s.bwrite t k (BitVec.twoPow 8 j) b) ∧ (s.bwrite t k (BitVec.twoPow 8 j) b).resps = s.resps

/-- For every record t, k <= 15 and code c <= 15: NIBRD(k) is W[k] mod 16; after NIBWR(k, c), W[k] is its old high nibble
with c below it, every other byte and everything else is as before, and NIBRD(k) answers c. (R86, R87.) -/
def Obligations.NibbleWriteKeepsHighNibble : Prop :=
  ∀ (s : State) (t k c : Nat), k ≤ 15 → c ≤ 15 →
    s.nibrd t k = (s.byteAt (byteAddr t k)).toNat % 16 ∧
    ((s.nibwr t k c).byteAt (byteAddr t k)).toNat = (s.byteAt (byteAddr t k)).toNat / 16 * 16 + c ∧
    (s.nibwr t k c).nibrd t k = c ∧
    SameOutside s (s.nibwr t k c) (byteAddr t k) 1 ∧ SameControl s (s.nibwr t k c) ∧ (s.nibwr t k c).resps = s.resps

/-- For every address a, width n and value v, after MemWrite(a, n, v) byte a + j holds bits 8j+7 : 8j of v for every j <
n, every other byte reads as before, and MemRead(a, n) answers v mod 256^n. (20_memory.md R30, 40_lsu.md R90.) -/
def Obligations.MemReadAfterMemWrite : Prop :=
  ∀ (s : State) (a n v : Nat),
    (∀ j, j < n → ((s.memWrite a n v).byteAt (a + j)).toNat = v / 256 ^ j % 256) ∧
    SameOutside s (s.memWrite a n v) a n ∧ (s.memWrite a n v).memRead a n = v % 256 ^ n

/-- For GETJ.LH, GETJ.LV, GETJ.RH and GETJ.RV at offsets 0, 2, 4, 6: the command completes with (OK, W[off] + 256 W[off+1]
- 2048) and nothing else changes. (The hypothesis leaves out only the free reads of a padding record under PADDED_READ
= ANY, which PaddedReadAnyIsFree states.) The words are 0x10 to 0x13. (R101, R102, R103, R104.) -/
def Obligations.GetJoystickReadsBiasedHalf : Prop :=
  ∀ p ∈ ([(.getjLh, 0x10, 0), (.getjLv, 0x11, 2), (.getjRh, 0x12, 4), (.getjRv, 0x13, 6)] : List (Instr × Nat × Nat)),
    WordSpells p.2.1 p.1 ∧
    ∀ s : State, s.readsFree s.target = false →
      exec p.1 s = .next (s.respond .ok
        (((s.byteAt (byteAddr s.target p.2.2)).toNat : Int) +
          256 * (s.byteAt (byteAddr s.target (p.2.2 + 1))).toNat - 2048))

/-- For SETJ.LH, SETJ.LV, SETJ.RH and SETJ.RV at offsets 0, 2, 4, 6 of record WSEL: with -2048 <= v <= 2047 the command
completes with (OK, 0), the two bytes hold v + 2048 low byte first, every other byte of frame memory and every other
piece of state is as before; with v outside it answers (RangeError, 0) and nothing else changes. The words are (IMM <<
8) | 0x20 to 0x23 with operand sext_24(IMM), every IMM legal. (R105, R106, R107, R108.) -/
def Obligations.SetJoystickStoresOrRefusesRange : Prop :=
  ∀ p ∈ ([(.setjLh, 0x20, 0), (.setjLv, 0x21, 2), (.setjRh, 0x22, 4), (.setjRv, 0x23, 6)] :
        List ((Int → Instr) × Nat × Nat)),
    SignedFormat p.2.1 p.1 ∧
    ∀ (s : State) (v : Int),
      (-2048 ≤ v ∧ v ≤ 2047 → ∃ t : State, exec (p.1 v) s = .next t ∧ Answered s t .ok 0 ∧ SameControl s t ∧
        ((t.byteAt (byteAddr s.target p.2.2)).toNat : Int) = (v + 2048) % 256 ∧
        ((t.byteAt (byteAddr s.target (p.2.2 + 1))).toNat : Int) = (v + 2048) / 256 ∧
        SameOutside s t (byteAddr s.target p.2.2) 2) ∧
      (v < -2048 ∨ 2047 < v → exec (p.1 v) s = .next (s.respond .rangeError 0))

/-- For every axis, every state and every v in -2048..2047: the setter completes, and the getter issued next answers (OK,
v), whatever PADDED_READ is, since the record cannot be padding any more. (41_joystick.md R109, 41_joystick.md R100,
95_test_vectors.md section 1.2.) -/
def Obligations.JoystickSetThenGet : Prop :=
  ∀ (s : State) (v : Int), -2048 ≤ v → v ≤ 2047 →
    ∀ p ∈ ([(.setjLh, .getjLh), (.setjLv, .getjLv), (.setjRh, .getjRh), (.setjRv, .getjRv)] :
        List ((Int → Instr) × Instr)),
      ∃ t : State, exec (p.1 v) s = .next t ∧ exec p.2 t = .next (t.respond .ok v)

/-- For GETT.ZL (byte 9) and GETT.ZR (byte 11): the command completes with (OK, W[off]), 0..255, and nothing else changes.
(The hypothesis leaves out only the free reads of a padding record under PADDED_READ = ANY, which PaddedReadAnyIsFree
states.) The words are 0x30 and 0x31. (R121, R122.) -/
def Obligations.GetTriggerReadsByte : Prop :=
  ∀ p ∈ ([(.gettZl, 0x30, 9), (.gettZr, 0x31, 11)] : List (Instr × Nat × Nat)),
    WordSpells p.2.1 p.1 ∧
    ∀ s : State, s.readsFree s.target = false →
      exec p.1 s = .next (s.respond .ok ((s.byteAt (byteAddr s.target p.2.2)).toNat : Int))

/-- For SETT.ZL (byte 9) and SETT.ZR (byte 11) of record WSEL: with 0 <= p <= 255 the command completes with (OK, 0), the
byte is p, every other byte and every other piece of state is as before; with p outside it answers (RangeError, 0) and
nothing else changes: no clamping. The words are (IMM << 8) | 0x40 and 0x41 with operand sext_24(IMM), every IMM
legal. (R123, R124.) -/
def Obligations.SetTriggerStoresOrRefusesRange : Prop :=
  ∀ p ∈ ([(.settZl, 0x40, 9), (.settZr, 0x41, 11)] : List ((Int → Instr) × Nat × Nat)),
    SignedFormat p.2.1 p.1 ∧
    ∀ (s : State) (v : Int),
      (0 ≤ v ∧ v ≤ 255 → ∃ t : State, exec (p.1 v) s = .next t ∧ Answered s t .ok 0 ∧ SameControl s t ∧
        ((t.byteAt (byteAddr s.target p.2.2)).toNat : Int) = v ∧ SameOutside s t (byteAddr s.target p.2.2) 1) ∧
      (v < 0 ∨ 255 < v → exec (p.1 v) s = .next (s.respond .rangeError 0))

/-- Each of the eight commands completes with (OK, 1) when its bit of W[12] (L 4, R 5, ZL 6, ZR 7, A 0, B 1, Y 2, X 3) is
set, else (OK, 0), and nothing else changes. (The hypothesis leaves out only the free reads of a padding record under
PADDED_READ = ANY, which PaddedReadAnyIsFree states.) The words are 0x50 to 0x57. (R132, R133, R134, R135, R136, R137,
R138, R139.) -/
def Obligations.GetFaceButtonsReadTheirBit : Prop :=
  ∀ p ∈ ([(.getbL, 0x50, 4), (.getbR, 0x51, 5), (.getbZl, 0x52, 6), (.getbZr, 0x53, 7),
        (.getbA, 0x54, 0), (.getbB, 0x55, 1), (.getbY, 0x56, 2), (.getbX, 0x57, 3)] : List (Instr × Nat × Nat)),
    WordSpells p.2.1 p.1 ∧
    ∀ s : State, s.readsFree s.target = false →
      exec p.1 s = .next (s.respond .ok (if (s.byteAt (byteAddr s.target 12)).getLsbD p.2.2 then 1 else 0))

/-- Each of the six commands completes with (OK, 1) when its bit of W[13] (HOME 4, SHOT 5, LS 0, RS 1, MINUS 2, PLUS 3) is
set, else (OK, 0), and nothing else changes. (The hypothesis leaves out only the free reads of a padding record under
PADDED_READ = ANY, which PaddedReadAnyIsFree states.) The words are 0x58 to 0x5D. (R140, R141, R142, R143, R144,
R145.) -/
def Obligations.GetSecondaryButtonsReadTheirBit : Prop :=
  ∀ p ∈ ([(.getbHome, 0x58, 4), (.getbShot, 0x59, 5), (.getbLs, 0x5A, 0), (.getbRs, 0x5B, 1),
        (.getbMinus, 0x5C, 2), (.getbPlus, 0x5D, 3)] : List (Instr × Nat × Nat)),
    WordSpells p.2.1 p.1 ∧
    ∀ s : State, s.readsFree s.target = false →
      exec p.1 s = .next (s.respond .ok (if (s.byteAt (byteAddr s.target 13)).getLsbD p.2.2 then 1 else 0))

/-- Each of the eight commands completes with (OK, 0); its bit of W[12] of record WSEL is b, every other bit of that byte,
every other byte of frame memory and every other piece of state is as before, whatever the record holds. The words are
0x60 to 0x67 for b = 0, 0x160 to 0x167 for b = 1; IMM[23:1] not 0 is illegal. (R146, R147, R148, R149, R150, R151,
R152, R153.) -/
def Obligations.SetFaceButtonsWriteTheirBit : Prop :=
  ∀ p ∈ ([(.setbL, 0x60, 4), (.setbR, 0x61, 5), (.setbZl, 0x62, 6), (.setbZr, 0x63, 7),
        (.setbA, 0x64, 0), (.setbB, 0x65, 1), (.setbY, 0x66, 2), (.setbX, 0x67, 3)] : List ((Bool → Instr) × Nat × Nat)),
    BoolFormat p.2.1 p.1 ∧
    ∀ (s : State) (b : Bool), ∃ t : State, exec (p.1 b) s = .next t ∧ Answered s t .ok 0 ∧ SameControl s t ∧
        (∀ n : Nat, (t.byteAt (byteAddr s.target 12)).getLsbD n =
          if n = p.2.2 then b else (s.byteAt (byteAddr s.target 12)).getLsbD n) ∧
        SameOutside s t (byteAddr s.target 12) 1

/-- Each of the six commands completes with (OK, 0); its bit of W[13] of record WSEL is b, every other bit of that byte
(bits 7:6 included), every other byte of frame memory and every other piece of state is as before, whatever the record
holds. The words are 0x68 to 0x6D for b = 0, 0x168 to 0x16D for b = 1; IMM[23:1] not 0 is illegal. (R154, R155, R156,
R157, R158, R159.) -/
def Obligations.SetSecondaryButtonsWriteTheirBit : Prop :=
  ∀ p ∈ ([(.setbHome, 0x68, 4), (.setbShot, 0x69, 5), (.setbLs, 0x6A, 0), (.setbRs, 0x6B, 1),
        (.setbMinus, 0x6C, 2), (.setbPlus, 0x6D, 3)] : List ((Bool → Instr) × Nat × Nat)),
    BoolFormat p.2.1 p.1 ∧
    ∀ (s : State) (b : Bool), ∃ t : State, exec (p.1 b) s = .next t ∧ Answered s t .ok 0 ∧ SameControl s t ∧
        (∀ n : Nat, (t.byteAt (byteAddr s.target 13)).getLsbD n =
          if n = p.2.2 then b else (s.byteAt (byteAddr s.target 13)).getLsbD n) ∧
        SameOutside s t (byteAddr s.target 13) 1

/-- For every state, every two different buttons and every truth value: after SETB of the first on the selected record the
test of the second answers as before, the test of the first answers the value written, and the D-pad nibble is as
before. (43_buttons.md R160, 43_buttons.md R131, 95_test_vectors.md section 1.2.) -/
def Obligations.ButtonLanesAreIndependent : Prop :=
  ∀ (s t : State) (p q : Button) (b : Bool), exec (ofMutator (.setb p b)) s = .next t →
    t.btest s.target (buttonOffset p) (buttonMask p) = b ∧ t.nibrd s.target 14 = s.nibrd s.target 14 ∧
    (p ≠ q → t.btest s.target (buttonOffset q) (buttonMask q) = s.btest s.target (buttonOffset q) (buttonMask q))

/-- GETDP ignores the high nibble of W[14]: with a low nibble 0..8 or 15 the command completes with that code, with 9..14
it answers (FormatError, 0); nothing else changes. (The hypothesis leaves out only the free reads of a padding record
under PADDED_READ = ANY, which PaddedReadAnyIsFree states.) The word is 0x70. (R170.) -/
def Obligations.GetDpadAnswersCodeOrFormatError : Prop :=
  WordSpells 0x70 .getdp ∧ ∀ s : State, s.readsFree s.target = false →
    exec .getdp s =
      if 9 ≤ (s.byteAt (byteAddr s.target 14)).toNat % 16 ∧ (s.byteAt (byteAddr s.target 14)).toNat % 16 ≤ 14
      then .next (s.respond .formatError 0)
      else .next (s.respond .ok (((s.byteAt (byteAddr s.target 14)).toNat % 16 : Nat) : Int))

/-- For each of the ten members: SETDP completes with (OK, 0); the low nibble of W[14] of record WSEL is the member's
code, the high nibble, every other byte and every other piece of state is as before; GETDP issued next answers (OK,
code) (except as a free read of a record that is padding after it under PADDED_READ = ANY). The word is (c << 8) |
0x71; IMM 9..14 or above 15 is illegal. (R171.) -/
def Obligations.SetDpadWritesLowNibble : Prop :=
  (∀ imm : Nat, 9 ≤ imm → imm ≤ 14 ∨ 16 ≤ imm → imm < 16777216 → ∀ ws,
      ∃ e, (decodeCmd (BitVec.ofNat 32 (256 * imm + 0x71)) ws).1 = .error e) ∧
    ∀ p ∈ ([(.notPressed, 0), (.up, 1), (.upRight, 2), (.right, 3), (.downRight, 4), (.down, 5), (.downLeft, 6),
        (.left, 7), (.upLeft, 8), (.padding, 15)] : List (Dpad × Nat)),
      WordSpells (256 * p.2 + 0x71) (.setdp p.1) ∧
      ∀ s : State, ∃ t : State, exec (.setdp p.1) s = .next t ∧ Answered s t .ok 0 ∧ SameControl s t ∧
        (t.byteAt (byteAddr s.target 14)).toNat = (s.byteAt (byteAddr s.target 14)).toNat / 16 * 16 + p.2 ∧
        SameOutside s t (byteAddr s.target 14) 1 ∧
        (t.readsFree t.target = false → exec .getdp t = .next (t.respond .ok (p.2 : Int)))

/-- DpadCode gives the ten members the codes 0..8 and 15, DpadName of a member's code is that member, and among the codes
0..15 DpadName is undefined exactly on 9..14. (R172.) -/
def Obligations.DpadNameInvertsCode : Prop :=
  (dpadCode .notPressed = 0 ∧ dpadCode .up = 1 ∧ dpadCode .upRight = 2 ∧ dpadCode .right = 3 ∧ dpadCode .downRight = 4 ∧
      dpadCode .down = 5 ∧ dpadCode .downLeft = 6 ∧ dpadCode .left = 7 ∧ dpadCode .upLeft = 8 ∧ dpadCode .padding = 15) ∧
    (∀ d : Dpad, dpadName (dpadCode d) = some d) ∧ (∀ d e : Dpad, dpadCode d = dpadCode e → d = e) ∧
    (∀ c, c ≤ 15 → (dpadName c = none ↔ 9 ≤ c ∧ c ≤ 14)) ∧ (∀ c d, dpadName c = some d → dpadCode d = c)

/-- When PADDED_READ is ANY and the sixteen bytes of the selected record are 0xFF: each GETJ completes with some value in
-2048..63487, each GETT with some value in 0..255, each GETB with 0 or 1, and GETDP completes with one of 0..8, 15 or
answers FormatError; nothing of the block changes (only the model's draw counter moves). Nothing more is said of the
value: it is free (log entry 7). Those two conditions are exactly when State.readsFree holds, by which the other
getter statements leave these reads out. (93_implementation_defined.md U1, 30_encoding.md R54, 92_eei_decisions.md
D15.) -/
def Obligations.PaddedReadAnyIsFree : Prop :=
  (∀ (s : State) (t : Nat), s.readsFree t = true ↔
      s.params.paddedRead = .any ∧ ∀ k, k < 16 → s.byteAt (byteAddr t k) = 0xFF#8) ∧
  ∀ s : State, s.params.paddedRead = .any → (∀ k, k < 16 → s.byteAt (byteAddr s.target k) = 0xFF#8) →
    (∀ i ∈ ([.getjLh, .getjLv, .getjRh, .getjRv] : List Instr),
      ∃ v : Int, -2048 ≤ v ∧ v ≤ 63487 ∧ exec i s = .next (s.draw.respond .ok v)) ∧
    (∀ i ∈ ([.gettZl, .gettZr] : List Instr), ∃ v : Int, 0 ≤ v ∧ v ≤ 255 ∧ exec i s = .next (s.draw.respond .ok v)) ∧
    (∀ i ∈ ([.getbL, .getbR, .getbZl, .getbZr, .getbA, .getbB, .getbY, .getbX, .getbHome, .getbShot, .getbLs, .getbRs,
        .getbMinus, .getbPlus] : List Instr),
      exec i s = .next (s.draw.respond .ok 0) ∨ exec i s = .next (s.draw.respond .ok 1)) ∧
    (exec .getdp s = .next (s.draw.respond .formatError 0) ∨
      ∃ d : Dpad, exec .getdp s = .next (s.draw.respond .ok (dpadCode d)))

/-- When PADDED_READ is ALGORITHMIC and the selected record is padding: GETJ.* answer 63487, GETT.* 255, GETB.* 1, GETDP
15 and ISPAD 1, and nothing else changes. (30_encoding.md R54, 90_conflicts.md C1, 95_test_vectors.md section 7.) -/
def Obligations.PaddingRecordFieldViews : Prop :=
  ∀ s : State, s.params.paddedRead = .algorithmic → (∀ k, k < 16 → s.byteAt (byteAddr s.target k) = 0xFF#8) →
    (∀ i ∈ ([.getjLh, .getjLv, .getjRh, .getjRv] : List Instr), exec i s = .next (s.respond .ok 63487)) ∧
    (∀ i ∈ ([.gettZl, .gettZr] : List Instr), exec i s = .next (s.respond .ok 255)) ∧
    (∀ i ∈ ([.getbL, .getbR, .getbZl, .getbZr, .getbA, .getbB, .getbY, .getbX, .getbHome, .getbShot, .getbLs, .getbRs,
        .getbMinus, .getbPlus, .ispad] : List Instr), exec i s = .next (s.respond .ok 1)) ∧
    exec .getdp s = .next (s.respond .ok 15)

/-- ISPAD completes with (OK, 1) when every byte of record WSEL is 0xFF and with (OK, 0) when some byte is not; nothing
else changes. The word is 0x80. (R180.) -/
def Obligations.IspadTellsPadding : Prop :=
  WordSpells 0x80 .ispad ∧ ∀ s : State,
    ((∀ k, k < 16 → s.byteAt (byteAddr s.target k) = 0xFF#8) → exec .ispad s = .next (s.respond .ok 1)) ∧
    ((∃ k, k < 16 ∧ s.byteAt (byteAddr s.target k) ≠ 0xFF#8) → exec .ispad s = .next (s.respond .ok 0))

/-- SETPAD completes with (OK, 0) in every state: with b = 1 every byte of record WSEL is 0xFF, with b = 0 the record is
00 08 00 08 00 08 00 08 00 00 00 00 00 00 00 02; every byte of the other records and every other piece of state is as
before. ISPAD issued next answers b, and after b = 0 the four GETJ answer 0. The words are 0x81 and 0x181; IMM[23:1]
not 0 is illegal. (R181.) -/
def Obligations.SetpadFillsOrResetsRecord : Prop :=
  BoolFormat 0x81 .setpad ∧ ∀ (s : State) (b : Bool), ∃ t : State, exec (.setpad b) s = .next t ∧ Answered s t .ok 0 ∧ SameControl s t ∧
      SameOutside s t (byteAddr s.target 0) 16 ∧
      (∀ k, k < 16 → t.byteAt (byteAddr s.target k) = if b then 0xFF#8 else
        ([0x00, 0x08, 0x00, 0x08, 0x00, 0x08, 0x00, 0x08, 0, 0, 0, 0, 0, 0, 0, 0x02] : List Byte).getD k 0) ∧
      exec .ispad t = .next (t.respond .ok (if b then 1 else 0)) ∧
      (b = false → ∀ i ∈ ([.getjLh, .getjLv, .getjRh, .getjRv] : List Instr), exec i t = .next (t.respond .ok 0))

/-- With a sink attached that does not fail, ENC completes with (OK, 0), the sink is its old content followed by W[0], ..,
W[15] of record WSEL, and nothing else changes, whatever the record holds. The word is 0x82. (R182.) -/
def Obligations.EncodeEmitsRecordBytes : Prop :=
  WordSpells 0x82 .enc ∧ ∀ (s : State) (out : List Byte), s.params.sinkFails = false → s.snk = some out →
    exec .enc s = .next ((s.setSnk (out ++ (List.range 16).map fun k => s.byteAt (byteAddr s.target k))).respond .ok 0)

/-- With a source attached that has 16 or more unread bytes, DEC completes with (OK, 0): W[k] of record WSEL is the k-th
of them, the position advances by 16, every other byte and every other piece of state is as before. With fewer, it
answers (FormatError, 0): every byte outside record WSEL is as before, the position is anywhere from its old value to
the end, CUR, WSEL, the sink, the host's list and the parameters are as before (of the sixteen bytes nothing is said:
they are free, log entry 8; nor of the model's own draw counter). The word is 0x83. (R183.) -/
def Obligations.DecodeLoadsRecordOrFails : Prop :=
  WordSpells 0x83 .dec ∧ ∀ (s : State) (sr : Source), s.src = some sr →
    (16 ≤ sr.avail → ∃ t : State, exec .dec s = .next t ∧ Answered s t .ok 0 ∧
      (∀ k, k < 16 → t.byteAt (byteAddr s.target k) = sr.bytes.getD (sr.pos + k) 0) ∧
      SameOutside s t (byteAddr s.target 0) 16 ∧ t.src = some ⟨sr.bytes, sr.pos + 16⟩ ∧
      SameControl (s.setSrc ⟨sr.bytes, sr.pos + 16⟩) t) ∧
    (sr.avail < 16 → ∃ (t : State) (p : Nat), exec .dec s = .next t ∧ Answered s t .formatError 0 ∧
      SameOutside s t (byteAddr s.target 0) 16 ∧ sr.pos ≤ p ∧ p ≤ sr.pos + sr.avail ∧
      SameSpecControl (s.setSrc ⟨sr.bytes, p⟩) t)

/-- If ENC in state s appends bytes bs to the sink, then in every state u whose source holds bs next, DEC completes and
its selected record then holds, byte for byte, what the record selected in s held, reserved bits included.
(45_padding_record.md R182, 45_padding_record.md R183, 95_test_vectors.md section 1.2.) -/
def Obligations.EncodeThenDecodeRestores : Prop :=
  ∀ (s t u : State) (out bs : List Byte) (sr : Source), exec .enc s = .next t → s.snk = some out → t.snk = some (out ++ bs) →
    u.src = some sr → (sr.bytes.drop sr.pos).take 16 = bs →
    ∃ w : State, exec .dec u = .next w ∧ Answered u w .ok 0 ∧
      ∀ k, k < 16 → w.byteAt (byteAddr u.target k) = s.byteAt (byteAddr s.target k)

/-- CINIT completes with (OK, 0) in every state: every byte x of frame memory is byte x mod 16 of INIT_WORD (ACTIVE_RESET
by default, all zero but the terminator with ACTIVE_UNCENTRED), CUR and WSEL are 0, and the streams, the host's list
and the parameters are as before. With the default parameters the frame memory, CUR and WSEL are those of the reset
state. The word is 0xC0. (R200, R261.) -/
def Obligations.CinitIsReset : Prop :=
  WordSpells 0xC0 .cinit ∧ ∀ s : State, ∃ t : State, exec .cinit s = .next t ∧ Answered s t .ok 0 ∧ t.cur = 0 ∧ t.wsel = 0 ∧
      SameControl ((s.setCur 0).setWsel 0) t ∧
      (∀ x, x < 1048576 → t.byteAt x =
        if s.params.initWord = .activeCentred
        then ([0x00, 0x08, 0x00, 0x08, 0x00, 0x08, 0x00, 0x08, 0, 0, 0, 0, 0, 0, 0, 0x02] : List Byte).getD (x % 16) 0
        else if x % 16 = 15 then 0x02#8 else 0#8) ∧
      t.fm = State.reset.fm ∧ t.cur = State.reset.cur ∧ t.wsel = State.reset.wsel

/-- With CUR < 65536 and every mutator's operand inside its domain, WNEXT completes with (OK, 0): CUR is one higher, every
byte outside record CUR is as before, and WSEL, the streams, the host's list and the parameters are as before; byte 15
of the slot is 0x02 unless the list holds a SETPAD 1. (46_container.md R201, 10_state.md R12, 10_state.md R13.) -/
def Obligations.WnextCompletesAndAdvances : Prop :=
  ∀ (s : State) (ms : List Mutator), s.cur < 65536 → ms.all mutatorInDomain = true →
    ∃ t : State, exec (.wnext ms) s = .next t ∧ Answered s t .ok 0 ∧ t.cur = s.cur + 1 ∧
      SameControl (s.setCur (s.cur + 1)) t ∧ SameOutside s t (byteAddr s.cur 0) 16 ∧
      (Mutator.setpad true ∉ ms → t.byteAt (byteAddr s.cur 15) = 0x02#8)

/-- With CUR < 65536 and every operand in its domain: the frame memory after WNEXT reads, at every address, as after the
direct commands SETPAD 0, m_1, .., m_n issued one by one in the state with WSEL set to CUR; all of those complete. In
particular the old content of the slot does not matter beyond those commands. (46_container.md R201, 30_encoding.md
R60, 92_eei_decisions.md D16, 70_reset_and_hazards.md R266.) -/
def Obligations.WnextIsResetThenMutators : Prop :=
  ∀ (s : State) (ms : List Mutator), s.cur < 65536 → ms.all mutatorInDomain = true →
    ∃ t u : State, exec (.wnext ms) s = .next t ∧
      execAll (.setpad false :: ms.map ofMutator) (s.setWsel (BitVec.ofNat 16 s.cur)) = .next u ∧
      t.fm = u.fm ∧ t.cur = u.cur + 1

/-- With CUR = 65536 WNEXT answers (CapacityError, 0) whatever its mutators are and nothing else changes, so every further
WNEXT fails the same way until CINIT or reset; and a command that answers CapacityError is a WNEXT with CUR = 65536.
(R233.) -/
def Obligations.WnextCapacityError : Prop :=
  (∀ (s : State) (ms : List Mutator), s.cur = 65536 → exec (.wnext ms) s = .next (s.respond .capacityError 0)) ∧
    (∀ (i : Instr) (s t : State) (v : Int), exec i s = .next t → Answered s t .capacityError v →
      s.cur = 65536 ∧ ∃ ms, i = .wnext ms)

/-- With CUR < 65536 and a group whose first out-of-domain operand belongs to m: WNEXT answers (RangeError, 0), CUR, WSEL
and every byte outside record CUR are as before, and the frame memory is exactly what a WNEXT of only the mutators
before m leaves. (46_container.md R201, 60_exceptions.md R237, 60_exceptions.md R239, 92_eei_decisions.md D10.) -/
def Obligations.WnextStopsAtFirstRangeError : Prop :=
  ∀ (s t : State) (before after : List Mutator) (m : Mutator), s.cur < 65536 → before.all mutatorInDomain = true →
    mutatorInDomain m = false → exec (.wnext before) s = .next t →
    ∃ u : State, exec (.wnext (before ++ m :: after)) s = .next u ∧ Answered s u .rangeError 0 ∧ SameControl s u ∧
      SameOutside s u (byteAddr s.cur 0) 16 ∧ u.fm = t.fm

/-- From any state, a list of WNEXT groups with every operand in its domain that fits the remaining capacity runs to the
end, one OK response each, and CUR is higher by its length; when that makes CUR 65536, any further WNEXT answers
CapacityError and changes nothing. (46_container.md R207, 46_container.md R201, 95_test_vectors.md section 1.2.) -/
def Obligations.ContainerCapacity : Prop :=
  ∀ (s : State) (gs : List (List Mutator)), (∀ ms ∈ gs, ms.all mutatorInDomain = true) → s.cur + gs.length ≤ 65536 →
    ∃ t : State, execAll (gs.map Instr.wnext) s = .next t ∧ t.cur = s.cur + gs.length ∧
      t.resps = s.resps ++ List.replicate gs.length ⟨.ok, 0⟩ ∧ t.wsel = s.wsel ∧
      (∀ x, x < 16 * s.cur ∨ 16 * t.cur ≤ x → t.byteAt x = s.byteAt x) ∧
      (s.cur + gs.length = 65536 → ∀ ms, exec (.wnext ms) t = .next (t.respond .capacityError 0))

/-- FINISH completes with (OK, 0) in every state: every byte from address 16 CUR up to 1048575 is 0xFF, every byte below
is as before (so nothing changes with CUR = 65536), CUR, WSEL and every other piece of state is as before; a second
FINISH leaves every byte as the first left it. The word is 0xC2. (R202.) -/
def Obligations.FinishPadsFromCursor : Prop :=
  WordSpells 0xC2 .finish ∧ ∀ s : State, ∃ t : State, exec .finish s = .next t ∧ Answered s t .ok 0 ∧ SameControl s t ∧
      (∀ x, t.byteAt x = if 16 * s.cur ≤ x ∧ x < 1048576 then 0xFF#8 else s.byteAt x) ∧
      (∃ u : State, exec .finish t = .next u ∧ SameMemory t u)

/-- For every state that meets the invariant, the frame memory after FINISH is the one that R202's loop leaves, which pads
record CUR, CUR+1, .., 65535 one after another. (46_container.md R202.) -/
def Obligations.FinishIsRecordLoop : Prop :=
  ∀ s : State, s.Inv → ∃ t : State, exec .finish s = .next t ∧ t.fm = (finishLoop (65536 - s.cur) s.cur s).fm

/-- With 0 <= i <= 65535 GETW completes with (OK, 0), WSEL is i and nothing else changes; with i < 0 or i > 65535 it
answers (IndexError, 0) and nothing else changes. The codec commands that follow act on record i: the target record is
then i. The words are (IMM << 8) | 0xC3 with operand sext_24(IMM), every IMM legal. (R203.) -/
def Obligations.GetwSelectsOrIndexError : Prop :=
  SignedFormat 0xC3 .getw ∧ ∀ (s : State) (i : Int),
    (0 ≤ i → i ≤ 65535 → ∃ j : BitVec 16, (j.toNat : Int) = i ∧ exec (.getw i) s = .next ((s.setWsel j).respond .ok 0) ∧
      ((((s.setWsel j).respond .ok 0).target : Nat) : Int) = i) ∧
    (i < 0 ∨ 65535 < i → exec (.getw i) s = .next (s.respond .indexError 0))

/-- With a sink attached that does not fail, SER completes with (OK, 0): the sink is its old content followed by exactly
1048576 bytes, of which the j-th is FM[j]; nothing else changes. The word is 0xC4. (R204.) -/
def Obligations.SerializeEmitsWholeMemory : Prop :=
  WordSpells 0xC4 .ser ∧ ∀ (s : State) (out : List Byte), s.params.sinkFails = false → s.snk = some out →
    ∃ bs : List Byte, exec .ser s = .next ((s.setSnk (out ++ bs)).respond .ok 0) ∧ bs.length = 1048576 ∧
      ∀ j, j < 1048576 → bs[j]? = some (s.byteAt j)

/-- With 1048576 or more unread bytes DESER completes with (OK, 0): FM[x] is the x-th of them for every x, the position
advances by 1048576 and everything else is as before. With fewer, it answers (FormatError, 0) at record i = avail div
16: records below i hold the source's bytes, records above i are as before, the position is anywhere from where record
i began to the end, and CUR, WSEL, the sink, the host's list and the parameters are as before (of record i nothing is
said: it is free, log entry 8; nor of the model's own draw counter). The word is 0xC5. (R205.) -/
def Obligations.DeserializeLoadsOrFails : Prop :=
  WordSpells 0xC5 .deser ∧ ∀ (s : State) (sr : Source), s.src = some sr →
    (1048576 ≤ sr.avail → ∃ t : State, exec .deser s = .next t ∧ Answered s t .ok 0 ∧
      (∀ x, x < 1048576 → t.byteAt x = sr.bytes.getD (sr.pos + x) 0) ∧
      (∀ x, 1048576 ≤ x → t.byteAt x = s.byteAt x) ∧
      SameControl (s.setSrc ⟨sr.bytes, sr.pos + 1048576⟩) t) ∧
    (sr.avail < 1048576 → ∃ (t : State) (p : Nat), exec .deser s = .next t ∧ Answered s t .formatError 0 ∧
      (∀ x, x < 16 * (sr.avail / 16) → t.byteAt x = sr.bytes.getD (sr.pos + x) 0) ∧
      (∀ x, 16 * (sr.avail / 16) + 16 ≤ x → t.byteAt x = s.byteAt x) ∧
      sr.pos + 16 * (sr.avail / 16) ≤ p ∧ p ≤ sr.pos + sr.avail ∧
      SameSpecControl (s.setSrc ⟨sr.bytes, p⟩) t)

/-- For every state that meets the invariant and has a source attached, exec of DESER equals R205's loop, which decodes
sixteen bytes into record 0, 1, .., 65535 in order and stops at the first record for which fewer than sixteen bytes
remain. (46_container.md R205, 91_not_in_source.md N24.) -/
def Obligations.DeserializeIsRecordLoop : Prop :=
  ∀ (s : State) (sr : Source), s.Inv → s.src = some sr → exec .deser s = deserLoop 65536 0 sr s

/-- If SER in state s appends bytes bs to the sink, then in every state u with the same INIT_WORD whose source holds bs
next, DESER completes and the frame memory is then that of s, both states meeting the invariant. (46_container.md
R204, 46_container.md R205, 95_test_vectors.md section 8.) -/
def Obligations.SerializeThenDeserializeRestores : Prop :=
  ∀ (s t u : State) (out bs : List Byte) (sr : Source), s.Inv → u.Inv → u.params.initWord = s.params.initWord →
    exec .ser s = .next t → s.snk = some out → t.snk = some (out ++ bs) →
    u.src = some sr → (sr.bytes.drop sr.pos).take 1048576 = bs →
    ∃ w : State, exec .deser u = .next w ∧ Answered u w .ok 0 ∧ w.fm = s.fm

/-- Without commands between, the expansion of ITER has 65536 elements, of which the i-th is getw i. With any commands
body i between, running it from any state equals the loop that for i = 0, 1, .., 65535 sets WSEL to i, answers (OK,
0), and runs body i from there, stopping where a command stops (iterLoop, worded from R66). With codec commands
between, from a state that meets the invariant and has its streams, it runs to the end, leaves WSEL = 65535 and CUR as
it was. Without commands between it completes from every state, changes nothing but WSEL and the responses, leaves
WSEL = 65535, and answers 65536 times (OK, 0). (30_encoding.md R66, 46_container.md R206.) -/
def Obligations.IterationEndsAtLastRecord : Prop :=
  ((expandIter fun _ => []).length = 65536 ∧
      ∀ i, i < 65536 → (expandIter fun _ => [])[i]? = some (.getw (i : Int))) ∧
    (∀ (body : Nat → List Instr) (s : State), execAll (expandIter body) s = iterLoop body 65536 0 s) ∧
    (∀ (body : Nat → List Instr) (s : State), (∀ i, i < 65536 → (body i).all isCodec = true) → s.Inv → s.StreamsReady →
      ∃ t : State, execAll (expandIter body) s = .next t ∧ t.wsel = 65535#16 ∧ t.cur = s.cur) ∧
    ∀ s : State, ∃ t : State, execAll (expandIter fun _ => []) s = .next t ∧ t.wsel = 65535#16 ∧ t.fm = s.fm ∧
      t.cur = s.cur ∧ t.src = s.src ∧ t.snk = s.snk ∧ t.cmds = s.cmds ∧
      t.resps = s.resps ++ List.replicate 65536 ⟨.ok, 0⟩
end

