-- ==== Sys2Proof/Laws/Decode.lean ====
section
/-! SUPPORT. The laws of the command word's fields and of the D-pad code table, for proofs about the decoder and the encoder. -/

namespace Sys2Proof

@[simp] theorem opOf_mkWord (op : Opcode) (imm : Imm) : opOf (mkWord op imm) = op := by
  apply BitVec.eq_of_toNat_eq
  have h : (mkWord op imm).toNat = imm.toNat * 256 + op.toNat := by
    rw [mkWord, BitVec.toNat_append, Nat.shiftLeft_eq, ← Nat.shiftLeft_eq, ← Nat.shiftLeft_add_eq_or_of_lt op.isLt, Nat.shiftLeft_eq]
  have := op.isLt
  simp only [opOf, BitVec.extractLsb'_toNat, h, Nat.shiftRight_zero]
  omega

@[simp] theorem immOf_mkWord (op : Opcode) (imm : Imm) : immOf (mkWord op imm) = imm := by
  apply BitVec.eq_of_toNat_eq
  have h : (mkWord op imm).toNat = imm.toNat * 256 + op.toNat := by
    rw [mkWord, BitVec.toNat_append, ← Nat.shiftLeft_add_eq_or_of_lt op.isLt, Nat.shiftLeft_eq]
  have := op.isLt
  have := imm.isLt
  simp only [immOf, BitVec.extractLsb'_toNat, h, Nat.shiftRight_eq_div_pow]
  omega

/-- A command word is its opcode and its immediate. -/
theorem mkWord_opOf_immOf (w : Word) : mkWord (opOf w) (immOf w) = w := by
  apply BitVec.eq_of_toNat_eq
  have h : (mkWord (opOf w) (immOf w)).toNat = (immOf w).toNat * 256 + (opOf w).toNat := by
    rw [mkWord, BitVec.toNat_append, ← Nat.shiftLeft_add_eq_or_of_lt (opOf w).isLt, Nat.shiftLeft_eq]
  have := w.isLt
  rw [h]
  simp only [immOf, opOf, BitVec.extractLsb'_toNat, Nat.shiftRight_eq_div_pow]
  omega

theorem dpadCode_lt (d : Dpad) : dpadCode d < 16 := by cases d <;> decide

end Sys2Proof
end

