-- ==== Sys2Proof/Laws/Memory.lean ====
section
/-! SUPPORT. The laws of frame memory: a read after a write, the one-pass read, and the canonical form that every write keeps. -/

namespace Sys2Proof.Machine

variable (iw : Config.InitWord)

theorem Memory.read_nil (x : Nat) : Memory.read iw [] x = Memory.initial iw x := rfl

theorem Memory.read_cons_lt {c : Host.Cell} {m : Memory} {x : Nat} (h : c.1 < x) :
    Memory.read iw (c :: m) x = Memory.read iw m x := by
  simp [Memory.read, h]

theorem Memory.read_cons_ge {c : Host.Cell} {m : Memory} {x : Nat} (h : x ≤ c.1) :
    Memory.read iw (c :: m) x = if c.1 = x then c.2 else Memory.initial iw x := by
  simp [Memory.read, Nat.not_lt.mpr h]

/-- Cells below the address do not matter to a read. -/
theorem Memory.read_append_lt {m₁ : Memory} (m₂ : Memory) {x : Nat} (h : ∀ c ∈ m₁, c.1 < x) :
    Memory.read iw (m₁ ++ m₂) x = Memory.read iw m₂ x := by
  induction m₁ with
  | nil => rfl
  | cons c m ih =>
    rw [List.cons_append, Memory.read_cons_lt iw (h c (by simp)), ih fun d hd => h d (by simp [hd])]

/-- Dropping cells below a lower address does not matter to a read. -/
theorem Memory.read_dropWhile (m : Memory) {x y : Nat} (h : y ≤ x) :
    Memory.read iw (m.dropWhile fun c => decide (c.1 < y)) x = Memory.read iw m x := by
  induction m with
  | nil => rfl
  | cons c m ih =>
    by_cases hc : c.1 < y
    · rw [List.dropWhile_cons_of_pos (by simpa using hc), ih, Memory.read_cons_lt iw (by omega)]
    · rw [List.dropWhile_cons_of_neg (by simpa using hc)]

/-- A read below the first cell finds the reset contents. -/
theorem Memory.read_of_head_gt {m : Memory} {x : Nat} (h : ∀ c ∈ m.head?, x < c.1) :
    Memory.read iw m x = Memory.initial iw x := by
  cases m with
  | nil => rfl
  | cons c m =>
    have hx : x < c.1 := h c rfl
    rw [Memory.read_cons_ge iw (by omega), if_neg (by omega)]

theorem Memory.head_dropWhile_ge (m : Memory) (y : Nat) :
    ∀ c ∈ (m.dropWhile fun c => decide (c.1 < y)).head?, y ≤ c.1 := by
  induction m with
  | nil => simp
  | cons c m ih =>
    by_cases hc : c.1 < y
    · rwa [List.dropWhile_cons_of_pos (by simpa using hc)]
    · rw [List.dropWhile_cons_of_neg (by simpa using hc)]
      simpa using hc

theorem Memory.takeWhile_lt (m : Memory) (y : Nat) :
    ∀ c ∈ m.takeWhile (fun c => decide (c.1 < y)), c.1 < y := fun c hc => by
  simpa using List.mem_takeWhile_imp hc

theorem Memory.cells_range (bs : List Byte) (x : Nat) :
    ∀ c ∈ Memory.cells iw x bs, x ≤ c.1 ∧ c.1 < x + bs.length ∧ c.2 ≠ Memory.initial iw c.1 := by
  induction bs generalizing x with
  | nil => simp [Memory.cells]
  | cons b bs ih =>
    intro c hc
    rw [Memory.cells] at hc
    split at hc
    · have := ih (x + 1) c hc
      simp only [List.length_cons]
      exact ⟨by omega, by omega, this.2.2⟩
    · rcases List.mem_cons.mp hc with rfl | hc
      · simp only [List.length_cons]
        exact ⟨le_refl _, by omega, ‹_›⟩
      · have := ih (x + 1) c hc
        simp only [List.length_cons]
        exact ⟨by omega, by omega, this.2.2⟩

theorem Memory.cells_sorted (bs : List Byte) (x : Nat) :
    (Memory.cells iw x bs).Pairwise fun c d => c.1 < d.1 := by
  induction bs generalizing x with
  | nil => simp [Memory.cells]
  | cons b bs ih =>
    rw [Memory.cells]
    split
    · exact ih (x + 1)
    · refine List.pairwise_cons.mpr ⟨fun c hc => ?_, ih (x + 1)⟩
      have := (Memory.cells_range iw bs (x + 1) c hc).1
      omega

/-- A read at or above the whole run, or before its first byte, does not see the run's cells. -/
theorem Memory.read_cells_append (bs : List Byte) (m : Memory) {x y : Nat}
    (hm : ∀ c ∈ m.head?, x + bs.length ≤ c.1) (hy : x ≤ y) (hy' : y < x + bs.length) :
    Memory.read iw (Memory.cells iw x bs ++ m) y = bs.getD (y - x) 0 := by
  induction bs generalizing x with
  | nil => simp at hy'; omega
  | cons b bs ih =>
    simp only [List.length_cons] at hm hy'
    rw [Memory.cells]
    by_cases hxy : x = y
    · subst hxy
      have hrest : Memory.read iw (Memory.cells iw (x + 1) bs ++ m) x = Memory.initial iw x := by
        refine Memory.read_of_head_gt iw fun c hc => ?_
        rw [List.head?_append] at hc
        rcases h : (Memory.cells iw (x + 1) bs).head? with _ | d
        · rw [h] at hc
          have := hm c (by simpa using hc)
          omega
        · rw [h] at hc
          obtain rfl : d = c := by simpa using hc
          have := (Memory.cells_range iw bs (x + 1) d (List.mem_of_head? h)).1
          omega
      split
      · rename_i hb
        rw [hrest]
        simp [hb]
      · rw [List.cons_append, Memory.read_cons_ge iw (le_refl x)]
        simp
    · have ih' := ih (x := x + 1) (fun c hc => by have := hm c hc; omega) (by omega) (by omega)
      have hidx : y - x = (y - (x + 1)) + 1 := by omega
      split
      · rw [ih', hidx, List.getD_cons_succ]
      · rw [List.cons_append, Memory.read_cons_lt iw (by simp; omega), ih', hidx, List.getD_cons_succ]

/-- A READ AFTER A WRITE, in every memory: a byte of the run, or the byte that was there before. -/
theorem Memory.read_write (m : Memory) (x : Nat) (bs : List Byte) (y : Nat) :
    Memory.read iw (Memory.write iw m x bs) y =
      if x ≤ y ∧ y < x + bs.length then bs.getD (y - x) 0 else Memory.read iw m y := by
  rw [Memory.write]
  split
  · rename_i h
    rw [Memory.read_append_lt iw _ fun c hc => by have := Memory.takeWhile_lt m x c hc; omega]
    exact Memory.read_cells_append iw bs _ (Memory.head_dropWhile_ge m _) h.1 h.2
  · rename_i h
    by_cases hy : x ≤ y
    · rw [Memory.read_append_lt iw _ fun c hc => by have := Memory.takeWhile_lt m x c hc; omega,
        Memory.read_append_lt iw _ fun c hc => by
          have := (Memory.cells_range iw bs x c hc).2.1
          omega,
        Memory.read_dropWhile iw m (by omega)]
    · induction m with
      | nil =>
        refine Memory.read_of_head_gt iw fun c hc => ?_
        have := (Memory.cells_range iw bs x c (by simpa using List.mem_of_head? hc)).1
        omega
      | cons c m ih =>
        by_cases hc : c.1 < x
        · rw [List.takeWhile_cons_of_pos (by simpa using hc),
            List.dropWhile_cons_of_pos (by simp; omega), List.cons_append]
          by_cases hcy : c.1 < y
          · rw [Memory.read_cons_lt iw hcy, Memory.read_cons_lt iw hcy, ih]
          · rw [Memory.read_cons_ge iw (by omega), Memory.read_cons_ge iw (by omega)]
        · rw [List.takeWhile_cons_of_neg (by simpa using hc), List.nil_append,
            Memory.read_cons_ge iw (show y ≤ c.1 by omega), if_neg (show ¬c.1 = y by omega)]
          refine Memory.read_of_head_gt iw fun d hd => ?_
          rw [List.head?_append] at hd
          rcases h : (Memory.cells iw x bs).head? with _ | e
          · rw [h] at hd
            have := Memory.head_dropWhile_ge (c :: m) (x + bs.length) d (by simpa using hd)
            omega
          · rw [h] at hd
            obtain rfl : e = d := by simpa using hd
            have := (Memory.cells_range iw bs x e (List.mem_of_head? h)).1
            omega

/-- Every write inside the frame memory keeps the canonical form. -/
theorem Memory.write_wf {m : Memory} (hm : Memory.wf iw m) {x : Nat} {bs : List Byte} (hx : x + bs.length ≤ fileBytes) :
    Memory.wf iw (Memory.write iw m x bs) := by
  have hdrop : ∀ c ∈ m.dropWhile (fun c => decide (c.1 < x + bs.length)), x + bs.length ≤ c.1 := by
    intro c hc
    have hs : (m.dropWhile (fun c => decide (c.1 < x + bs.length))).Pairwise fun c d => c.1 < d.1 :=
      hm.1.sublist (List.dropWhile_sublist _)
    have hh := Memory.head_dropWhile_ge m (x + bs.length)
    rcases h : m.dropWhile (fun c => decide (c.1 < x + bs.length)) with _ | ⟨d, ds⟩
    · simp [h] at hc
    · rw [h] at hc hs hh
      have hd : x + bs.length ≤ d.1 := hh d rfl
      rcases List.mem_cons.mp hc with rfl | hc
      · exact hd
      · have := List.rel_of_pairwise_cons hs hc
        omega
  refine ⟨List.pairwise_append.mpr ⟨hm.1.sublist (List.takeWhile_sublist _), List.pairwise_append.mpr
      ⟨Memory.cells_sorted iw bs x, hm.1.sublist (List.dropWhile_sublist _), fun c hc d hd => ?_⟩, fun c hc d hd => ?_⟩,
    fun c hc => ?_⟩
  · have := (Memory.cells_range iw bs x c hc).2.1
    have := hdrop d hd
    omega
  · have := Memory.takeWhile_lt m x c hc
    rcases List.mem_append.mp hd with hd | hd
    · have := (Memory.cells_range iw bs x d hd).1
      omega
    · have := hdrop d hd
      omega
  · rcases List.mem_append.mp hc with hc | hc
    · exact hm.2 c ((List.takeWhile_sublist _).subset hc)
    · rcases List.mem_append.mp hc with hc | hc
      · have := Memory.cells_range iw bs x c hc
        exact ⟨by omega, this.2.2⟩
      · exact hm.2 c ((List.dropWhile_sublist _).subset hc)

/-- The empty list is canonical: it is the memory after reset. -/
theorem Memory.nil_wf : Memory.wf iw [] := ⟨List.Pairwise.nil, by simp⟩

/-- The one-pass read gives the bytes that single reads give. -/
theorem Memory.bytes_eq (n x : Nat) (m : Memory) :
    Memory.bytes iw n x m = (List.range n).map fun j => Memory.read iw m (x + j) := by
  induction n generalizing x m with
  | zero => rfl
  | succ n ih =>
    rw [Memory.bytes, ih, List.range_succ_eq_map, List.map_cons, List.map_map, Memory.read_dropWhile iw m (le_refl x)]
    refine congrArg _ (List.map_congr_left fun j _ => ?_)
    rw [Memory.read_dropWhile iw m (by omega), Function.comp_apply, Nat.succ_eq_add_one, Nat.add_assoc, Nat.add_comm 1 j]

@[simp] theorem Memory.bytes_length (n x : Nat) (m : Memory) : (Memory.bytes iw n x m).length = n := by
  simp [Memory.bytes_eq]

/-- Canonical memories that read alike are equal. -/
theorem Memory.ext {m₁ m₂ : Memory} (h₁ : Memory.wf iw m₁) (h₂ : Memory.wf iw m₂)
    (h : ∀ x < fileBytes, Memory.read iw m₁ x = Memory.read iw m₂ x) : m₁ = m₂ := by
  have tail {c : Host.Cell} {m : Memory} (hm : Memory.wf iw (c :: m)) : Memory.wf iw m :=
    ⟨(List.pairwise_cons.mp hm.1).2, fun d hd => hm.2 d (List.mem_cons_of_mem c hd)⟩
  have above {c : Host.Cell} {m : Memory} (hm : Memory.wf iw (c :: m)) {x : Nat} (hx : x ≤ c.1) :
      Memory.read iw m x = Memory.initial iw x := by
    refine Memory.read_of_head_gt iw fun d hd => ?_
    have := List.rel_of_pairwise_cons hm.1 (List.mem_of_head? hd)
    omega
  induction m₁ generalizing m₂ with
  | nil =>
    cases m₂ with
    | nil => rfl
    | cons d m₂ =>
      have := h d.1 (h₂.2 d (by simp)).1
      rw [Memory.read_nil, Memory.read_cons_ge iw (le_refl _), if_pos rfl] at this
      exact absurd this.symm (h₂.2 d (by simp)).2
  | cons c m₁ ih =>
    cases m₂ with
    | nil =>
      have := h c.1 (h₁.2 c (by simp)).1
      rw [Memory.read_nil, Memory.read_cons_ge iw (le_refl _), if_pos rfl] at this
      exact absurd this (h₁.2 c (by simp)).2
    | cons d m₂ =>
      have hc := h c.1 (h₁.2 c (by simp)).1
      have hd := h d.1 (h₂.2 d (by simp)).1
      rw [Memory.read_cons_ge iw (le_refl c.1), if_pos rfl] at hc
      rw [Memory.read_cons_ge iw (le_refl d.1) (c := d), if_pos rfl] at hd
      have hcd : c.1 = d.1 := by
        rcases Nat.lt_trichotomy c.1 d.1 with hlt | heq | hgt
        · rw [Memory.read_cons_ge iw (by omega), if_neg (by omega)] at hc
          exact absurd hc (h₁.2 c (by simp)).2
        · exact heq
        · rw [Memory.read_cons_ge iw (by omega), if_neg (by omega)] at hd
          exact absurd hd.symm (h₂.2 d (by simp)).2
      have hv : c.2 = d.2 := by
        rw [hcd, Memory.read_cons_ge iw (le_refl d.1), if_pos rfl] at hc
        exact hc
      obtain rfl : c = d := Prod.ext hcd hv
      refine congrArg _ (ih (tail h₁) (tail h₂) fun x hx => ?_)
      have hxx := h x hx
      by_cases hlt : c.1 < x
      · rwa [Memory.read_cons_lt iw hlt, Memory.read_cons_lt iw hlt] at hxx
      · rw [above h₁ (by omega), above h₂ (by omega)]

end Sys2Proof.Machine
end

