-- ==== Sys2Proof/Laws/State.lean ====
section
/-! SUPPORT. What each update of State does to each field: one lemma per field per update, true by rfl. -/

namespace Sys2Proof.Machine

variable (s : State)

@[simp] theorem State.setCur_fm (n : Nat) : (s.setCur n).fm = s.fm := rfl
@[simp] theorem State.setCur_cur (n : Nat) : (s.setCur n).cur = n := rfl
@[simp] theorem State.setCur_wsel (n : Nat) : (s.setCur n).wsel = s.wsel := rfl
@[simp] theorem State.setCur_src (n : Nat) : (s.setCur n).src = s.src := rfl
@[simp] theorem State.setCur_snk (n : Nat) : (s.setCur n).snk = s.snk := rfl
@[simp] theorem State.setCur_cmds (n : Nat) : (s.setCur n).cmds = s.cmds := rfl
@[simp] theorem State.setCur_resps (n : Nat) : (s.setCur n).resps = s.resps := rfl
@[simp] theorem State.setCur_params (n : Nat) : (s.setCur n).params = s.params := rfl
@[simp] theorem State.setCur_draws (n : Nat) : (s.setCur n).draws = s.draws := rfl

@[simp] theorem State.setWsel_fm (i : BitVec 16) : (s.setWsel i).fm = s.fm := rfl
@[simp] theorem State.setWsel_cur (i : BitVec 16) : (s.setWsel i).cur = s.cur := rfl
@[simp] theorem State.setWsel_wsel (i : BitVec 16) : (s.setWsel i).wsel = i := rfl
@[simp] theorem State.setWsel_src (i : BitVec 16) : (s.setWsel i).src = s.src := rfl
@[simp] theorem State.setWsel_snk (i : BitVec 16) : (s.setWsel i).snk = s.snk := rfl
@[simp] theorem State.setWsel_cmds (i : BitVec 16) : (s.setWsel i).cmds = s.cmds := rfl
@[simp] theorem State.setWsel_resps (i : BitVec 16) : (s.setWsel i).resps = s.resps := rfl
@[simp] theorem State.setWsel_params (i : BitVec 16) : (s.setWsel i).params = s.params := rfl
@[simp] theorem State.setWsel_draws (i : BitVec 16) : (s.setWsel i).draws = s.draws := rfl

@[simp] theorem State.setSrc_fm (sr : Source) : (s.setSrc sr).fm = s.fm := rfl
@[simp] theorem State.setSrc_cur (sr : Source) : (s.setSrc sr).cur = s.cur := rfl
@[simp] theorem State.setSrc_wsel (sr : Source) : (s.setSrc sr).wsel = s.wsel := rfl
@[simp] theorem State.setSrc_src (sr : Source) : (s.setSrc sr).src = some sr := rfl
@[simp] theorem State.setSrc_snk (sr : Source) : (s.setSrc sr).snk = s.snk := rfl
@[simp] theorem State.setSrc_cmds (sr : Source) : (s.setSrc sr).cmds = s.cmds := rfl
@[simp] theorem State.setSrc_resps (sr : Source) : (s.setSrc sr).resps = s.resps := rfl
@[simp] theorem State.setSrc_params (sr : Source) : (s.setSrc sr).params = s.params := rfl
@[simp] theorem State.setSrc_draws (sr : Source) : (s.setSrc sr).draws = s.draws := rfl

@[simp] theorem State.setSnk_fm (out : List Byte) : (s.setSnk out).fm = s.fm := rfl
@[simp] theorem State.setSnk_cur (out : List Byte) : (s.setSnk out).cur = s.cur := rfl
@[simp] theorem State.setSnk_wsel (out : List Byte) : (s.setSnk out).wsel = s.wsel := rfl
@[simp] theorem State.setSnk_src (out : List Byte) : (s.setSnk out).src = s.src := rfl
@[simp] theorem State.setSnk_snk (out : List Byte) : (s.setSnk out).snk = some out := rfl
@[simp] theorem State.setSnk_cmds (out : List Byte) : (s.setSnk out).cmds = s.cmds := rfl
@[simp] theorem State.setSnk_resps (out : List Byte) : (s.setSnk out).resps = s.resps := rfl
@[simp] theorem State.setSnk_params (out : List Byte) : (s.setSnk out).params = s.params := rfl
@[simp] theorem State.setSnk_draws (out : List Byte) : (s.setSnk out).draws = s.draws := rfl

@[simp] theorem State.setCmds_fm (ws : List Word) : (s.setCmds ws).fm = s.fm := rfl
@[simp] theorem State.setCmds_cur (ws : List Word) : (s.setCmds ws).cur = s.cur := rfl
@[simp] theorem State.setCmds_wsel (ws : List Word) : (s.setCmds ws).wsel = s.wsel := rfl
@[simp] theorem State.setCmds_src (ws : List Word) : (s.setCmds ws).src = s.src := rfl
@[simp] theorem State.setCmds_snk (ws : List Word) : (s.setCmds ws).snk = s.snk := rfl
@[simp] theorem State.setCmds_cmds (ws : List Word) : (s.setCmds ws).cmds = ws := rfl
@[simp] theorem State.setCmds_resps (ws : List Word) : (s.setCmds ws).resps = s.resps := rfl
@[simp] theorem State.setCmds_params (ws : List Word) : (s.setCmds ws).params = s.params := rfl
@[simp] theorem State.setCmds_draws (ws : List Word) : (s.setCmds ws).draws = s.draws := rfl

@[simp] theorem State.draw_fm : (s.draw).fm = s.fm := rfl
@[simp] theorem State.draw_cur : (s.draw).cur = s.cur := rfl
@[simp] theorem State.draw_wsel : (s.draw).wsel = s.wsel := rfl
@[simp] theorem State.draw_src : (s.draw).src = s.src := rfl
@[simp] theorem State.draw_snk : (s.draw).snk = s.snk := rfl
@[simp] theorem State.draw_cmds : (s.draw).cmds = s.cmds := rfl
@[simp] theorem State.draw_resps : (s.draw).resps = s.resps := rfl
@[simp] theorem State.draw_params : (s.draw).params = s.params := rfl
@[simp] theorem State.draw_draws : (s.draw).draws = s.draws + 1 := rfl

@[simp] theorem State.respond_fm (st : Status) (v : Int) : (s.respond st v).fm = s.fm := rfl
@[simp] theorem State.respond_cur (st : Status) (v : Int) : (s.respond st v).cur = s.cur := rfl
@[simp] theorem State.respond_wsel (st : Status) (v : Int) : (s.respond st v).wsel = s.wsel := rfl
@[simp] theorem State.respond_src (st : Status) (v : Int) : (s.respond st v).src = s.src := rfl
@[simp] theorem State.respond_snk (st : Status) (v : Int) : (s.respond st v).snk = s.snk := rfl
@[simp] theorem State.respond_cmds (st : Status) (v : Int) : (s.respond st v).cmds = s.cmds := rfl
@[simp] theorem State.respond_resps (st : Status) (v : Int) : (s.respond st v).resps = s.resps ++ [⟨st, v⟩] := rfl
@[simp] theorem State.respond_params (st : Status) (v : Int) : (s.respond st v).params = s.params := rfl
@[simp] theorem State.respond_draws (st : Status) (v : Int) : (s.respond st v).draws = s.draws := rfl

@[simp] theorem State.setBytes_fm (x : Nat) (bs : List Byte) : (s.setBytes x bs).fm = Memory.write s.params.initWord s.fm x bs := rfl
@[simp] theorem State.setBytes_cur (x : Nat) (bs : List Byte) : (s.setBytes x bs).cur = s.cur := rfl
@[simp] theorem State.setBytes_wsel (x : Nat) (bs : List Byte) : (s.setBytes x bs).wsel = s.wsel := rfl
@[simp] theorem State.setBytes_src (x : Nat) (bs : List Byte) : (s.setBytes x bs).src = s.src := rfl
@[simp] theorem State.setBytes_snk (x : Nat) (bs : List Byte) : (s.setBytes x bs).snk = s.snk := rfl
@[simp] theorem State.setBytes_cmds (x : Nat) (bs : List Byte) : (s.setBytes x bs).cmds = s.cmds := rfl
@[simp] theorem State.setBytes_resps (x : Nat) (bs : List Byte) : (s.setBytes x bs).resps = s.resps := rfl
@[simp] theorem State.setBytes_params (x : Nat) (bs : List Byte) : (s.setBytes x bs).params = s.params := rfl
@[simp] theorem State.setBytes_draws (x : Nat) (bs : List Byte) : (s.setBytes x bs).draws = s.draws := rfl

@[simp] theorem State.construct_fm : (s.construct).fm = [] := rfl
@[simp] theorem State.construct_cur : (s.construct).cur = 0 := rfl
@[simp] theorem State.construct_wsel : (s.construct).wsel = 0 := rfl
@[simp] theorem State.construct_src : (s.construct).src = s.src := rfl
@[simp] theorem State.construct_snk : (s.construct).snk = s.snk := rfl
@[simp] theorem State.construct_cmds : (s.construct).cmds = s.cmds := rfl
@[simp] theorem State.construct_resps : (s.construct).resps = s.resps := rfl
@[simp] theorem State.construct_params : (s.construct).params = s.params := rfl
@[simp] theorem State.construct_draws : (s.construct).draws = s.draws := rfl

end Sys2Proof.Machine
end

