-- ==== Sys2Proof/Laws/Ops.lean ====
section
/-! SUPPORT. The laws of the shared operations: what each does to the bytes of frame memory, and everything a mutator, a sink write or the end of a command can do. -/

namespace Sys2Proof.Machine

variable (s : State)

/-! ## Bytes after each update -/

theorem State.byteAt_setBytes (x : Nat) (bs : List Byte) (y : Nat) :
    (s.setBytes x bs).byteAt y = if x ≤ y ∧ y < x + bs.length then bs.getD (y - x) 0 else s.byteAt y :=
  Memory.read_write _ _ _ _ _

@[simp] theorem State.byteAt_setCur (n x : Nat) : (s.setCur n).byteAt x = s.byteAt x := rfl
@[simp] theorem State.byteAt_setWsel (i : BitVec 16) (x : Nat) : (s.setWsel i).byteAt x = s.byteAt x := rfl
@[simp] theorem State.byteAt_setSrc (sr : Source) (x : Nat) : (s.setSrc sr).byteAt x = s.byteAt x := rfl
@[simp] theorem State.byteAt_setSnk (out : List Byte) (x : Nat) : (s.setSnk out).byteAt x = s.byteAt x := rfl
@[simp] theorem State.byteAt_setCmds (ws : List Word) (x : Nat) : (s.setCmds ws).byteAt x = s.byteAt x := rfl
@[simp] theorem State.byteAt_draw (x : Nat) : s.draw.byteAt x = s.byteAt x := rfl
@[simp] theorem State.byteAt_respond (st : Status) (v : Int) (x : Nat) : (s.respond st v).byteAt x = s.byteAt x := rfl
@[simp] theorem State.byteAt_construct (x : Nat) :
    s.construct.byteAt x = Memory.initial s.params.initWord x := rfl

theorem State.setBytes_wf (h : Memory.wf s.params.initWord s.fm) {x : Nat} {bs : List Byte}
    (hx : x + bs.length ≤ fileBytes) : Memory.wf (s.setBytes x bs).params.initWord (s.setBytes x bs).fm :=
  Memory.write_wf _ h hx

/-! ## The target record after each update -/

@[simp] theorem State.target_setBytes (x : Nat) (bs : List Byte) : (s.setBytes x bs).target = s.target := rfl
@[simp] theorem State.target_setRecord (t : Nat) (bs : List Byte) : (s.setRecord t bs).target = s.target := rfl
@[simp] theorem State.target_respond (st : Status) (v : Int) : (s.respond st v).target = s.target := rfl
@[simp] theorem State.target_setSrc (sr : Source) : (s.setSrc sr).target = s.target := rfl
@[simp] theorem State.target_setSnk (out : List Byte) : (s.setSnk out).target = s.target := rfl
@[simp] theorem State.target_setCmds (ws : List Word) : (s.setCmds ws).target = s.target := rfl
@[simp] theorem State.target_setCur (n : Nat) : (s.setCur n).target = s.target := rfl
@[simp] theorem State.target_draw : s.draw.target = s.target := rfl

/-! ## Runs of bytes -/

@[simp] theorem bytesLE_length (n v : Nat) : (bytesLE n v).length = n := by
  induction n generalizing v with
  | zero => rfl
  | succ n ih => simp [bytesLE, ih]

theorem State.bytesAt_eq (x n : Nat) : s.bytesAt x n = (List.range n).map fun j => s.byteAt (x + j) :=
  Memory.bytes_eq _ n x s.fm

@[simp] theorem State.bytesAt_length (x n : Nat) : (s.bytesAt x n).length = n :=
  Memory.bytes_length _ n x s.fm

@[simp] theorem State.recordBytes_length (t : Nat) : (s.recordBytes t).length = 16 := s.bytesAt_length _ _

theorem State.isPadding_iff (t : Nat) : s.isPadding t = true ↔ ∀ k < 16, s.ld8 t k = pad := by
  simp [State.isPadding, allPad, State.recordBytes, State.bytesAt_eq, State.ld8, byteAddr]

@[simp] theorem activeReset_length : activeReset.length = 16 := rfl
@[simp] theorem paddingRecord_length : paddingRecord.length = 16 := rfl
@[simp] theorem freeRecord_length (d : Nat) : (freeRecord d).length = 16 := by simp [freeRecord]
@[simp] theorem padFrom_length (c : Nat) : (padFrom c).length = 16 * (65536 - c) := List.length_replicate

theorem Source.next_length (sr : Source) (n : Nat) : (sr.next n).length = min n sr.avail := by
  simp [Source.next, Source.avail]

/-- Where the source may stand after a short read (R16): anywhere from where it stood to the end. -/
theorem shortReadSource_bounds (sr : Source) (d : Nat) :
    (shortReadSource sr d).bytes = sr.bytes ∧ sr.pos ≤ (shortReadSource sr d).pos ∧
      (shortReadSource sr d).pos ≤ sr.pos + sr.avail :=
  ⟨rfl, Nat.le_add_right _ _, Nat.add_le_add_left (Nat.le_of_lt_succ (Nat.mod_lt _ (Nat.succ_pos _))) _⟩

/-! ## The load/store unit -/

theorem State.ld16le_eq (t k : Nat) : s.ld16le t k = (s.ld8 t k).toNat + 256 * (s.ld8 t (k + 1)).toNat := by
  simp [State.ld16le, State.memRead, State.ld8, byteAddr, Nat.add_assoc]

theorem State.ld16le_lt (t k : Nat) : s.ld16le t k < 65536 := by
  rw [State.ld16le_eq]
  have := (s.ld8 t k).isLt
  have := (s.ld8 t (k + 1)).isLt
  omega

/-- The byte that `ST8` stores, and every other byte as it was. -/
theorem State.byteAt_st8 (t k : Nat) (b : Byte) (x : Nat) :
    (s.st8 t k b).byteAt x = if x = byteAddr t k then b else s.byteAt x := by
  rw [State.st8, State.byteAt_setBytes]
  by_cases h : x = byteAddr t k
  · subst h; simp
  · rw [if_neg h, if_neg]
    simp only [List.length_singleton]
    omega

/-- The two bytes that `ST16LE` stores, and every other byte as it was. -/
theorem State.byteAt_st16le (t k : Nat) (u : Int) (x : Nat) :
    (s.st16le t k u).byteAt x =
      if x = byteAddr t k then BitVec.ofNat 8 (u % 65536).toNat
      else if x = byteAddr t k + 1 then BitVec.ofNat 8 ((u % 65536).toNat / 256)
      else s.byteAt x := by
  rw [State.st16le, State.memWrite, State.byteAt_setBytes, bytesLE_length]
  by_cases h : x = byteAddr t k
  · subst h; simp [bytesLE]
  · rw [if_neg h]
    by_cases h' : x = byteAddr t k + 1
    · subst h'; simp [bytesLE]
    · rw [if_neg h', if_neg]
      omega

/-- A record that is stored, and every byte of the others as it was. -/
theorem State.byteAt_setRecord (t : Nat) (bs : List Byte) (x : Nat) :
    (s.setRecord t bs).byteAt x =
      if 16 * t ≤ x ∧ x < 16 * t + bs.length then bs.getD (x - 16 * t) 0 else s.byteAt x :=
  s.byteAt_setBytes _ _ _

/-! ## The ends of a command -/

theorem answer_eq (v : Int) : answer v s = .next (s.respond .ok v) := rfl
theorem raise_eq (e : Status) : raise e s = .next (s.respond e 0) := rfl
theorem complete_ok (s' : State) : complete (.ok s') s = .next (s'.respond .ok 0) := rfl
theorem complete_error (e : Status) : complete (.error e) s = .next (s.respond e 0) := rfl

/-- Everything a sink write can do. -/
theorem sinkWrite_cases (bs : List Byte) :
    (s.params.sinkFails = true ∧ sinkWrite bs s = .refused .sinkMayFail) ∨
    (s.params.sinkFails = false ∧ s.snk = none ∧ sinkWrite bs s = .refused .noByteSink) ∨
    (∃ out, s.params.sinkFails = false ∧ s.snk = some out ∧
      sinkWrite bs s = .next ((s.setSnk (out ++ bs)).respond .ok 0)) := by
  unfold sinkWrite
  cases s.params.sinkFails <;> cases s.snk <;> simp [answer]

/-- What a field getter leaves of the state: the state itself, or one free value drawn (U1). -/
theorem State.afterFieldRead_cases (t : Nat) : s.afterFieldRead t = s ∨ s.afterFieldRead t = s.draw := by
  unfold State.afterFieldRead
  split <;> simp

/-- Everything a mutator can do: a `RangeError`, or one run of bytes stored inside its record (R60, R231). -/
theorem mutate_cases (t : Nat) (m : Mutator) :
    mutate t m s = .error .rangeError ∨
    ∃ x bs, mutate t m s = .ok (s.setBytes x bs) ∧ 16 * t ≤ x ∧ x + bs.length ≤ 16 * t + 16 := by
  cases m with
  | setj ax v =>
    simp only [mutate, joyWrite]
    split
    · exact .inl rfl
    · refine .inr ⟨_, _, rfl, ?_⟩
      cases ax <;> simp [byteAddr, axisOffset]
  | sett tr p =>
    simp only [mutate, trigWrite]
    split
    · exact .inl rfl
    · refine .inr ⟨_, _, rfl, ?_⟩
      cases tr <;> simp [byteAddr, triggerOffset]
  | setb bt b =>
    refine .inr ⟨_, _, rfl, ?_⟩
    cases bt <;> simp [byteAddr, buttonOffset]
  | setdp d => exact .inr ⟨_, _, rfl, by simp [byteAddr], by simp [byteAddr]⟩
  | setpad b => exact .inr ⟨_, _, rfl, by simp [byteAddr], by cases b <;> simp [byteAddr]⟩

/-- What a list of mutators leaves unchanged: every field but the frame memory, every byte outside their record, and the
canonical form. -/
theorem mutateAll_frame (t : Nat) (ht : t < 65536) (ms : List Mutator) :
    (∃ m, (mutateAll t ms s).1 = { s with fm := m } ∧
      (Memory.wf s.params.initWord s.fm → Memory.wf s.params.initWord m)) ∧
    (∀ x, x < 16 * t ∨ 16 * t + 16 ≤ x → (mutateAll t ms s).1.byteAt x = s.byteAt x) ∧
    ((mutateAll t ms s).2 = none ∨ (mutateAll t ms s).2 = some .rangeError) := by
  induction ms generalizing s with
  | nil => exact ⟨⟨s.fm, rfl, id⟩, fun _ _ => rfl, .inl rfl⟩
  | cons m ms ih =>
    rcases mutate_cases s t m with h | ⟨x, bs, h, hx, hx'⟩
    · simp only [mutateAll, h]
      exact ⟨⟨s.fm, rfl, id⟩, fun _ _ => trivial, .inr trivial⟩
    · simp only [mutateAll, h]
      obtain ⟨⟨m', hm', hwf⟩, hb, hn⟩ := ih (s.setBytes x bs)
      refine ⟨⟨m', hm', fun h => hwf (s.setBytes_wf h ?_)⟩, fun y hy => ?_, hn⟩
      · show x + bs.length ≤ 1048576
        omega
      · rw [hb y hy, State.byteAt_setBytes, if_neg]
        omega

end Sys2Proof.Machine
end

