-- ==== Sys2Proof/Laws/Exec.lean ====
section
/-! SUPPORT. The inversion lemmas: everything each command can do, once for the codec commands and once for each container command, so that no proof about all commands unfolds them. -/

namespace Sys2Proof.Machine

variable (s : State)

/-- What the status and the value of any response satisfy (R64, R89). -/
def Bounded (st : Status) (v : Int) : Prop := (st ≠ .ok → v = 0) ∧ -2048 ≤ v ∧ v ≤ 63487

theorem Bounded.error (st : Status) : Bounded st 0 := ⟨fun _ => rfl, by decide, by decide⟩

/-- A command that only answers: the state gains one response, never `CapacityError`, and perhaps one free value has
been drawn. -/
def OnlyAnswers (s : State) (r : Result) : Prop :=
  ∃ st v, st ≠ .capacityError ∧ Bounded st v ∧ (r = .next (s.respond st v) ∨ r = .next (s.draw.respond st v))

/-- A command that stores one run of bytes inside the target record and answers `(OK, 0)`. -/
def StoresInTarget (s : State) (r : Result) : Prop :=
  ∃ x bs, 16 * s.target ≤ x ∧ x + bs.length ≤ 16 * s.target + 16 ∧ r = .next ((s.setBytes x bs).respond .ok 0)

theorem onlyAnswers_afterFieldRead {st : Status} {v : Int} (hc : st ≠ .capacityError) (h : Bounded st v) (t : Nat) :
    OnlyAnswers s (.next ((s.afterFieldRead t).respond st v)) := by
  rcases s.afterFieldRead_cases t with e | e <;> rw [e]
  · exact ⟨st, v, hc, h, .inl rfl⟩
  · exact ⟨st, v, hc, h, .inr rfl⟩

theorem joyGet_cases (ax : Axis) : OnlyAnswers s (joyGet ax s) := by
  refine onlyAnswers_afterFieldRead s (st := .ok) nofun ⟨nofun, ?_, ?_⟩ _ <;>
    (have : s.fieldHalf s.target (axisOffset ax) < 65536 := by
      unfold State.fieldHalf
      split
      · exact (Config.freeHalf s.draws).isLt
      · exact s.ld16le_lt _ _
     simp only [bias]
     omega)

theorem trigGet_cases (tr : Trigger) : OnlyAnswers s (trigGet tr s) := by
  have := (s.fieldByte s.target (triggerOffset tr)).isLt
  exact onlyAnswers_afterFieldRead s (st := .ok) nofun ⟨nofun, by omega, by omega⟩ _

theorem btnGet_cases (bt : Button) : OnlyAnswers s (btnGet bt s) := by
  refine onlyAnswers_afterFieldRead s (st := .ok) nofun ⟨nofun, ?_, ?_⟩ _ <;>
    cases testMask (s.fieldByte s.target (buttonOffset bt)) (buttonMask bt) <;> decide

theorem execGetdp_cases : OnlyAnswers s (execGetdp s) := by
  unfold execGetdp
  split
  · rename_i d _
    exact onlyAnswers_afterFieldRead s (st := .ok) nofun ⟨nofun, by cases d <;> decide, by cases d <;> decide⟩ _
  · exact onlyAnswers_afterFieldRead s (st := .formatError) nofun (.error _) _

theorem execIspad_cases : OnlyAnswers s (execIspad s) :=
  ⟨.ok, _, nofun, ⟨nofun, by cases s.isPadding s.target <;> decide, by cases s.isPadding s.target <;> decide⟩, .inl rfl⟩

/-- A mutator issued directly refuses its operand or stores inside the target record. -/
theorem complete_mutate_cases (m : Mutator) :
    OnlyAnswers s (complete (mutate s.target m s) s) ∨ StoresInTarget s (complete (mutate s.target m s) s) := by
  rcases mutate_cases s s.target m with h | ⟨x, bs, h, hx, hx'⟩
  · exact .inl ⟨.rangeError, 0, nofun, .error _, .inl (by rw [h]; rfl)⟩
  · exact .inr ⟨x, bs, hx, hx', by rw [h]; rfl⟩

/-- A mutator issued directly is `complete` of the shared meaning (R60). -/
theorem exec_ofMutator (m : Mutator) : exec (ofMutator m) s = complete (mutate s.target m s) s := by
  cases m with
  | setj ax v => cases ax <;> rfl
  | sett tr p => cases tr <;> rfl
  | setb bt b => cases bt <;> rfl
  | setdp d => rfl
  | setpad b => rfl

/-- EVERYTHING A CODEC COMMAND CAN DO: answer only, store inside the target record, or be `ENC` or `DEC`. -/
theorem exec_codec_cases (i : Instr) (hi : isCodec i = true) :
    OnlyAnswers s (exec i s) ∨ StoresInTarget s (exec i s) ∨ i = .enc ∨ i = .dec := by
  have hm (m : Mutator) (h : ofMutator m = i) :
      OnlyAnswers s (exec i s) ∨ StoresInTarget s (exec i s) ∨ i = .enc ∨ i = .dec := by
    subst h
    rw [exec_ofMutator]
    exact (complete_mutate_cases s m).imp_right .inl
  cases i with
  | getjLh => exact .inl (joyGet_cases s .lh)
  | getjLv => exact .inl (joyGet_cases s .lv)
  | getjRh => exact .inl (joyGet_cases s .rh)
  | getjRv => exact .inl (joyGet_cases s .rv)
  | setjLh v => exact hm (.setj .lh v) rfl
  | setjLv v => exact hm (.setj .lv v) rfl
  | setjRh v => exact hm (.setj .rh v) rfl
  | setjRv v => exact hm (.setj .rv v) rfl
  | gettZl => exact .inl (trigGet_cases s .zl)
  | gettZr => exact .inl (trigGet_cases s .zr)
  | settZl p => exact hm (.sett .zl p) rfl
  | settZr p => exact hm (.sett .zr p) rfl
  | getbL => exact .inl (btnGet_cases s .l)
  | getbR => exact .inl (btnGet_cases s .r)
  | getbZl => exact .inl (btnGet_cases s .zl)
  | getbZr => exact .inl (btnGet_cases s .zr)
  | getbA => exact .inl (btnGet_cases s .a)
  | getbB => exact .inl (btnGet_cases s .b)
  | getbY => exact .inl (btnGet_cases s .y)
  | getbX => exact .inl (btnGet_cases s .x)
  | getbHome => exact .inl (btnGet_cases s .home)
  | getbShot => exact .inl (btnGet_cases s .shot)
  | getbLs => exact .inl (btnGet_cases s .ls)
  | getbRs => exact .inl (btnGet_cases s .rs)
  | getbMinus => exact .inl (btnGet_cases s .minus)
  | getbPlus => exact .inl (btnGet_cases s .plus)
  | setbL b => exact hm (.setb .l b) rfl
  | setbR b => exact hm (.setb .r b) rfl
  | setbZl b => exact hm (.setb .zl b) rfl
  | setbZr b => exact hm (.setb .zr b) rfl
  | setbA b => exact hm (.setb .a b) rfl
  | setbB b => exact hm (.setb .b b) rfl
  | setbY b => exact hm (.setb .y b) rfl
  | setbX b => exact hm (.setb .x b) rfl
  | setbHome b => exact hm (.setb .home b) rfl
  | setbShot b => exact hm (.setb .shot b) rfl
  | setbLs b => exact hm (.setb .ls b) rfl
  | setbRs b => exact hm (.setb .rs b) rfl
  | setbMinus b => exact hm (.setb .minus b) rfl
  | setbPlus b => exact hm (.setb .plus b) rfl
  | getdp => exact .inl (execGetdp_cases s)
  | setdp d => exact hm (.setdp d) rfl
  | ispad => exact .inl (execIspad_cases s)
  | setpad b => exact hm (.setpad b) rfl
  | enc => exact .inr (.inr (.inl rfl))
  | dec => exact .inr (.inr (.inr rfl))
  | cinit => cases hi
  | wnext ms => cases hi
  | finish => cases hi
  | getw j => cases hi
  | ser => cases hi
  | deser => cases hi

/-- Everything `DEC` can do (R183). -/
theorem execDec_cases :
    (s.src = none ∧ execDec s = .refused .noByteSource) ∨
    (∃ sr, s.src = some sr ∧ sr.avail < 16 ∧
      execDec s = .next ((shortRead s.target sr s).respond .formatError 0)) ∨
    (∃ sr, s.src = some sr ∧ 16 ≤ sr.avail ∧
      execDec s = .next (((s.setRecord s.target (sr.next 16)).setSrc (sr.advance 16)).respond .ok 0)) := by
  unfold execDec
  cases hs : s.src with
  | none => exact .inl ⟨rfl, rfl⟩
  | some sr =>
    refine .inr ?_
    by_cases h : sr.avail < 16
    · exact .inl ⟨sr, rfl, h, if_pos h⟩
    · exact .inr ⟨sr, rfl, by omega, if_neg h⟩

/-- Everything `DESER` can do (R205): `n` is how many whole records it loads. -/
theorem execDeser_cases :
    (s.src = none ∧ execDeser s = .refused .noByteSource) ∨
    (∃ sr n, s.src = some sr ∧ n = sr.avail / 16 ∧ n < 65536 ∧
      execDeser s = .next ((shortRead n (sr.advance (16 * n))
        ((s.setRecord 0 (sr.next (16 * n))).setSrc (sr.advance (16 * n)))).respond .formatError 0)) ∨
    (∃ sr, s.src = some sr ∧ 1048576 ≤ sr.avail ∧
      execDeser s = .next (((s.setRecord 0 (sr.next 1048576)).setSrc (sr.advance 1048576)).respond .ok 0)) := by
  unfold execDeser
  cases hs : s.src with
  | none => exact .inl ⟨rfl, rfl⟩
  | some sr =>
    refine .inr ?_
    by_cases h : wholeRecords sr < nWords
    · have hw : wholeRecords sr = sr.avail / 16 := by
        simp only [wholeRecords, nWords, wordBytes] at h ⊢
        omega
      have hn : sr.avail / 16 < 65536 := hw ▸ h
      refine .inl ⟨sr, _, rfl, rfl, hn, ?_⟩
      simp only [hw, loadRecords, if_pos (show sr.avail / 16 < nWords from hn)]
      rfl
    · have hw : wholeRecords sr = 65536 := by
        simp only [wholeRecords, nWords, wordBytes] at h ⊢
        omega
      refine .inr ⟨sr, rfl, ?_, ?_⟩
      · simp only [wholeRecords, nWords, wordBytes] at hw
        omega
      · simp only [hw, loadRecords]
        rfl

/-- Everything `WNEXT` can do (R201). -/
theorem execWnext_cases (ms : List Mutator) :
    (s.cur = 65536 ∧ execWnext ms s = .next (s.respond .capacityError 0)) ∨
    (65536 < s.cur ∧ execWnext ms s = .fault .outsideFrameMemory) ∨
    (∃ m, s.cur < 65536 ∧ (Memory.wf s.params.initWord s.fm → Memory.wf s.params.initWord m) ∧
      (∀ x, x < 16 * s.cur ∨ 16 * s.cur + 16 ≤ x → State.byteAt { s with fm := m } x = s.byteAt x) ∧
      ((writeSlot ms s = ({ s with fm := m }, none) ∧
          execWnext ms s = .next ((State.setCur { s with fm := m } (s.cur + 1)).respond .ok 0)) ∨
        (writeSlot ms s = ({ s with fm := m }, some .rangeError) ∧
          execWnext ms s = .next (State.respond { s with fm := m } .rangeError 0)))) := by
  by_cases h : s.cur = 65536
  · exact .inl ⟨h, if_pos h⟩
  by_cases h' : 65536 < s.cur
  · exact .inr (.inl ⟨h', by rw [execWnext, if_neg h, if_pos h']⟩)
  refine .inr (.inr ?_)
  have hc : s.cur < 65536 := by omega
  obtain ⟨⟨m, hm, hwf⟩, hb, hn⟩ := mutateAll_frame (s.setRecord s.cur activeReset) s.cur hc ms
  have hs : (mutateAll s.cur ms (s.setRecord s.cur activeReset)).1 = { s with fm := m } := hm
  refine ⟨m, hc, fun hw => hwf (s.setBytes_wf hw ?_), fun x hx => ?_, ?_⟩
  · simp only [byteAddr, activeReset_length, wordBytes, fileBytes]
    omega
  · rw [← hs, hb x hx, State.byteAt_setRecord, activeReset_length, if_neg]
    omega
  · rcases hn with hn | hn
    · have hp : writeSlot ms s = (_, none) := Prod.ext hs hn
      refine .inl ⟨hp, ?_⟩
      rw [execWnext, if_neg h, if_neg h', hp]
      rfl
    · have hp : writeSlot ms s = (_, some .rangeError) := Prod.ext hs hn
      refine .inr ⟨hp, ?_⟩
      rw [execWnext, if_neg h, if_neg h', hp]
      rfl

end Sys2Proof.Machine
end

