-- ==== Sys2Proof/Laws/PerInstr.lean ====
section
/-! SUPPORT. For every command: the first word of its encoding carries its opcode and its operand's immediate in the fields the decoder reads. -/

namespace Sys2Proof.Laws.FirstWord

/-- The encoding of `i` begins with a word whose `OP` field is the opcode of `i` and whose `IMM` field carries its operand
(R57), and has no further word unless `i` is a `WNEXT`, whose count field then gives their number (R62). -/
def Statement (i : Instr) : Prop :=
  ∃ w ws, encode i = w :: ws ∧ opOf w = opcode i ∧ immOf w = immediate i ∧
    match i with
    | .wnext ms => ws.length = ms.length
    | _ => ws = []

/-- A command that is not a `WNEXT` is its first word. -/
theorem of_single (i : Instr) (h : encode i = [firstWord i]) (hw : ∀ ms, i ≠ .wnext ms) : Statement i := by
  refine ⟨firstWord i, [], h, opOf_mkWord _ _, immOf_mkWord _ _, ?_⟩
  cases i <;> first | rfl | exact absurd rfl (hw _)

theorem getjLh : Statement .getjLh := of_single _ rfl nofun
theorem getjLv : Statement .getjLv := of_single _ rfl nofun
theorem getjRh : Statement .getjRh := of_single _ rfl nofun
theorem getjRv : Statement .getjRv := of_single _ rfl nofun
theorem setjLh (v : Int) : Statement (.setjLh v) := of_single _ rfl nofun
theorem setjLv (v : Int) : Statement (.setjLv v) := of_single _ rfl nofun
theorem setjRh (v : Int) : Statement (.setjRh v) := of_single _ rfl nofun
theorem setjRv (v : Int) : Statement (.setjRv v) := of_single _ rfl nofun
theorem gettZl : Statement .gettZl := of_single _ rfl nofun
theorem gettZr : Statement .gettZr := of_single _ rfl nofun
theorem settZl (p : Int) : Statement (.settZl p) := of_single _ rfl nofun
theorem settZr (p : Int) : Statement (.settZr p) := of_single _ rfl nofun
theorem getbL : Statement .getbL := of_single _ rfl nofun
theorem getbR : Statement .getbR := of_single _ rfl nofun
theorem getbZl : Statement .getbZl := of_single _ rfl nofun
theorem getbZr : Statement .getbZr := of_single _ rfl nofun
theorem getbA : Statement .getbA := of_single _ rfl nofun
theorem getbB : Statement .getbB := of_single _ rfl nofun
theorem getbY : Statement .getbY := of_single _ rfl nofun
theorem getbX : Statement .getbX := of_single _ rfl nofun
theorem getbHome : Statement .getbHome := of_single _ rfl nofun
theorem getbShot : Statement .getbShot := of_single _ rfl nofun
theorem getbLs : Statement .getbLs := of_single _ rfl nofun
theorem getbRs : Statement .getbRs := of_single _ rfl nofun
theorem getbMinus : Statement .getbMinus := of_single _ rfl nofun
theorem getbPlus : Statement .getbPlus := of_single _ rfl nofun
theorem setbL (b : Bool) : Statement (.setbL b) := of_single _ rfl nofun
theorem setbR (b : Bool) : Statement (.setbR b) := of_single _ rfl nofun
theorem setbZl (b : Bool) : Statement (.setbZl b) := of_single _ rfl nofun
theorem setbZr (b : Bool) : Statement (.setbZr b) := of_single _ rfl nofun
theorem setbA (b : Bool) : Statement (.setbA b) := of_single _ rfl nofun
theorem setbB (b : Bool) : Statement (.setbB b) := of_single _ rfl nofun
theorem setbY (b : Bool) : Statement (.setbY b) := of_single _ rfl nofun
theorem setbX (b : Bool) : Statement (.setbX b) := of_single _ rfl nofun
theorem setbHome (b : Bool) : Statement (.setbHome b) := of_single _ rfl nofun
theorem setbShot (b : Bool) : Statement (.setbShot b) := of_single _ rfl nofun
theorem setbLs (b : Bool) : Statement (.setbLs b) := of_single _ rfl nofun
theorem setbRs (b : Bool) : Statement (.setbRs b) := of_single _ rfl nofun
theorem setbMinus (b : Bool) : Statement (.setbMinus b) := of_single _ rfl nofun
theorem setbPlus (b : Bool) : Statement (.setbPlus b) := of_single _ rfl nofun
theorem getdp : Statement .getdp := of_single _ rfl nofun
theorem setdp (d : Dpad) : Statement (.setdp d) := of_single _ rfl nofun
theorem ispad : Statement .ispad := of_single _ rfl nofun
theorem setpad (b : Bool) : Statement (.setpad b) := of_single _ rfl nofun
theorem enc : Statement .enc := of_single _ rfl nofun
theorem dec : Statement .dec := of_single _ rfl nofun
theorem cinit : Statement .cinit := of_single _ rfl nofun
theorem wnext (ms : List Mutator) : Statement (.wnext ms) :=
  ⟨_, _, rfl, opOf_mkWord _ _, immOf_mkWord _ _, List.length_map _⟩
theorem finish : Statement .finish := of_single _ rfl nofun
theorem getw (i : Int) : Statement (.getw i) := of_single _ rfl nofun
theorem ser : Statement .ser := of_single _ rfl nofun
theorem deser : Statement .deser := of_single _ rfl nofun

end Sys2Proof.Laws.FirstWord
end

