-- ==== Sys2Proof/Tests/Slice0.lean ====
section
/-! SUPPORT. The model's own tests: expected results are the words and vectors of 95_test_vectors.md, and for every statement with hypotheses a state that meets them. -/

namespace Sys2Proof.Tests

open Sys2Proof.Machine

/-- The next state of a result, or the reset state. -/
def after : Result → State
  | .next s => s
  | _ => State.reset

/-- The last response of a result. -/
def answerOf (r : Result) : Option Response := (after r).resps.getLast?

/-- Record 0 after a result. -/
def rec0 (r : Result) : List Byte := (after r).recordBytes 0

/-- The reset state with record 0 holding the given bytes. -/
def holding (bs : List Byte) : State := State.reset.setRecord 0 bs

/-- A padding record. -/
def ff : List Byte := List.replicate 16 0xFF#8

/-- The record of the SETPAD vectors of section 7. -/
def sample : List Byte := [0x9C, 0x07, 0, 8, 0, 8, 0, 8, 0, 0xC8, 0, 0, 0x11, 0, 3, 2]

/-! ## Well-formed terms -/

theorem test_wf_refuses_wide_operand :
    (Instr.setjLh 8388608).wellFormed = false ∧ (Instr.settZr (-8388609)).wellFormed = false ∧
    (Instr.getw 8388608).wellFormed = false ∧ (Instr.setjLh 8388607).wellFormed = true := by decide

theorem test_wf_refuses_wide_member :
    (Instr.wnext [.setj .lh 8388608]).wellFormed = false ∧ (Instr.wnext [.sett .zl (-8388609)]).wellFormed = false ∧
    (Instr.wnext [.setj .lh 0, .setpad true]).wellFormed = true := by decide

theorem test_wf_refuses_long_group (ms : List Mutator) (h : ms.length = 65536) :
    (Instr.wnext ms).wellFormed = false := by
  simp [Instr.wellFormed, h]

/-! ## Decoding: words written out from R57 to R59 (95_test_vectors.md sections 3 to 9) -/

theorem test_decode_joystick :
    decodeCmd 0x00000010 [] = (.ok .getjLh, []) ∧
    decodeCmd 0x00000011 [] = (.ok .getjLv, []) ∧
    decodeCmd 0x00000012 [] = (.ok .getjRh, []) ∧
    decodeCmd 0x00000013 [] = (.ok .getjRv, []) ∧
    decodeCmd 0xFFFF9C20 [] = (.ok (.setjLh (-100)), []) ∧
    decodeCmd 0x00080021 [] = (.ok (.setjLv (2048)), []) ∧
    decodeCmd 0x00006422 [] = (.ok (.setjRh (100)), []) ∧
    decodeCmd 0xFFF80023 [] = (.ok (.setjRv (-2048)), []) := by decide

theorem test_decode_trigger :
    decodeCmd 0x00000030 [] = (.ok .gettZl, []) ∧
    decodeCmd 0x00000031 [] = (.ok .gettZr, []) ∧
    decodeCmd 0x0000FF40 [] = (.ok (.settZl (255)), []) ∧
    decodeCmd 0x00010041 [] = (.ok (.settZr (256)), []) := by decide

theorem test_decode_getb :
    ([0x00000050, 0x00000051, 0x00000052, 0x00000053, 0x00000054, 0x00000055, 0x00000056,
        0x00000057, 0x00000058, 0x00000059, 0x0000005A, 0x0000005B, 0x0000005C, 0x0000005D] : List Word).map (fun w => (decodeCmd w []).1.toOption) =
      ([.getbL, .getbR, .getbZl, .getbZr, .getbA,
        .getbB, .getbY, .getbX, .getbHome, .getbShot,
        .getbLs, .getbRs, .getbMinus, .getbPlus] : List Instr).map some := by decide +kernel

theorem test_decode_setb :
    ([0x00000160, 0x00000161, 0x00000162, 0x00000163, 0x00000164, 0x00000165, 0x00000166,
        0x00000167, 0x00000168, 0x00000169, 0x0000016A, 0x0000016B, 0x0000016C, 0x0000016D] : List Word).map (fun w => (decodeCmd w []).1.toOption) =
      ([.setbL true, .setbR true, .setbZl true, .setbZr true, .setbA true,
        .setbB true, .setbY true, .setbX true, .setbHome true, .setbShot true,
        .setbLs true, .setbRs true, .setbMinus true, .setbPlus true] : List Instr).map some := by decide +kernel

theorem test_decode_dpad_record :
    decodeCmd 0x00000070 [] = (.ok .getdp, []) ∧
    decodeCmd 0x00000371 [] = (.ok (.setdp .right), []) ∧
    decodeCmd 0x00000080 [] = (.ok .ispad, []) ∧
    decodeCmd 0x00000181 [] = (.ok (.setpad true), []) ∧
    decodeCmd 0x00000082 [] = (.ok .enc, []) ∧
    decodeCmd 0x00000083 [] = (.ok .dec, []) := by decide

theorem test_decode_container :
    decodeCmd 0x000000C0 [] = (.ok .cinit, []) ∧
    decodeCmd 0x000001C1 [0x00000167] = (.ok (.wnext [.setb .x true]), []) ∧
    decodeCmd 0x000000C2 [] = (.ok .finish, []) ∧
    decodeCmd 0x010000C3 [] = (.ok (.getw (65536)), []) ∧
    decodeCmd 0x000000C4 [] = (.ok .ser, []) ∧
    decodeCmd 0x000000C5 [] = (.ok .deser, []) := by decide

theorem test_encode_matches_vectors :
    encode (.setjLh (-100)) = [0xFFFF9C20] ∧ encode (.setbPlus true) = [0x0000016D] ∧ encode (.getw (-1)) = [0xFFFFFFC3] ∧
    encode (.setdp .padding) = [0x00000F71] ∧ encode (.wnext [.setj .lh 100, .setb .a true]) =
      [0x000002C1, 0x00006420, 0x00000164] := by decide

theorem test_word_bytes :
    wordBytes 0xFFFF9C20 = [0x20, 0x9C, 0xFF, 0xFF] ∧ wordsOfBytes [0x23, 0x00, 0xF8, 0xFF] = [0xFFF80023] := by decide

theorem test_illegal_words :
    ([0x00000000, 0xFFFFFFFF, 0x00000014, 0x0000005E, 0x00000072, 0x00000084, 0x000000C6, 0x00000090, 0x00000110] ++
      [0x000001C2, 0x00000260, 0x00800064, 0x00000281, 0x00000971, 0x00000E71, 0x00001071, 0x010000C1, 0x000001C1] :
        List Word).all (fun w => (decodeCmd w []).1.toOption.isNone) = true := by decide +kernel

theorem test_illegal_groups :
    ([[0x00000010], [0x00000082], [0x000000C2], [0x00000971]] : List (List Word)).all
      (fun ws => (decodeCmd 0x000001C1 ws).1.toOption.isNone) = true := by decide +kernel

/-- The nesting vector of section 9: the group of three words is illegal, the fourth word executes directly. -/
theorem test_nested_group_resumes :
    decodeCmd 0x000002C1 [0x00000164, 0x000001C1, 0x00000164] = (.error .nestedGroup, [0x00000164]) := by decide

theorem test_illegal_header_is_one_word :
    decodeCmd 0x010002C1 [0x00000164, 0x00000165] = (.error .countHighBits, [0x00000164, 0x00000165]) := by decide

/-! ## Responses (section 9) and reset -/

theorem test_response_packing :
    (Response.pack ⟨.ok, 2047⟩) = 0x00000000000007FF#64 ∧ (Response.pack ⟨.ok, -2048⟩) = 0x00000000FFFFF800#64 ∧
    (Response.pack ⟨.ok, 63487⟩) = 0x000000000000F7FF#64 ∧ (Response.pack ⟨.illegalCommand, 0⟩) = 0x0000000500000000#64 := by
  decide

theorem test_reset_records :
    State.reset.recordBytes 0 = activeReset ∧ State.reset.recordBytes 65535 = activeReset ∧
    State.reset.isActive 7 = true ∧ State.reset.isPadding 7 = false ∧ (holding (0xFE#8 :: ff.tail)).isMalformed 0 = true := by
  decide

theorem test_effective_address :
    byteAddr 1 0 = 16 ∧ byteAddr 65535 15 = 1048575 ∧ byteAddr 4660 9 = 74569 := by decide

/-! ## Joystick (section 3) -/

theorem test_setj_stores :
    (rec0 (exec (.setjLh (-2048)) State.reset)).take 2 = [0x00, 0x00] ∧
    (rec0 (exec (.setjLh 2047) State.reset)).take 2 = [0xFF, 0x0F] ∧
    rec0 (exec (.setjRv 1234) State.reset) = [0, 8, 0, 8, 0, 8, 0xD2, 0x0C, 0, 0, 0, 0, 0, 0, 0, 2] ∧
    rec0 (exec (.setjLv (-1)) State.reset) = [0, 8, 0xFF, 7, 0, 8, 0, 8, 0, 0, 0, 0, 0, 0, 0, 2] ∧
    rec0 (exec (.setjRh 0) (holding ff)) = ff.take 4 ++ [0x00, 0x08] ++ ff.take 10 := by decide

theorem test_setj_range :
    exec (.setjLh 2048) State.reset = .next (State.reset.respond .rangeError 0) ∧
    exec (.setjRv (-2049)) State.reset = .next (State.reset.respond .rangeError 0) := ⟨rfl, rfl⟩

theorem test_getj_reads :
    answerOf (exec .getjLh (holding [0xFF, 0x0F])) = some ⟨.ok, 2047⟩ ∧
    answerOf (exec .getjLv (holding [0, 0, 0x00, 0x80])) = some ⟨.ok, 30720⟩ ∧
    answerOf (exec .getjRh (holding [0, 0, 0, 0, 0x34, 0x12])) = some ⟨.ok, 2612⟩ ∧
    answerOf (exec .getjRv (holding [0, 0, 0, 0, 0, 0, 0xFF, 0x00])) = some ⟨.ok, -1793⟩ ∧
    answerOf (exec .getjLh (holding ff)) = some ⟨.ok, 63487⟩ := by decide

/-! ## Triggers (section 4) -/

theorem test_sett_stores :
    (rec0 (exec (.settZl 200) State.reset)) = [0, 8, 0, 8, 0, 8, 0, 8, 0, 0xC8, 0, 0, 0, 0, 0, 2] ∧
    (rec0 (exec (.settZr 255) State.reset)) = [0, 8, 0, 8, 0, 8, 0, 8, 0, 0, 0, 0xFF, 0, 0, 0, 2] ∧
    answerOf (exec .getbZl (after (exec (.settZl 200) State.reset))) = some ⟨.ok, 0⟩ := by decide

theorem test_sett_range :
    exec (.settZl 256) State.reset = .next (State.reset.respond .rangeError 0) ∧
    exec (.settZr (-1)) State.reset = .next (State.reset.respond .rangeError 0) := ⟨rfl, rfl⟩

theorem test_gett_reads :
    answerOf (exec .gettZl (holding sample)) = some ⟨.ok, 200⟩ ∧
    answerOf (exec .gettZr (holding ff)) = some ⟨.ok, 255⟩ := by decide

/-! ## Buttons (section 5) -/

/-- The eight getters of byte 12 on 0x91. -/
theorem test_getb_byte12 :
    [Instr.getbL, .getbR, .getbZl, .getbZr, .getbA, .getbB, .getbY, .getbX].map
      (fun i => (answerOf (exec i (holding (activeReset.set 12 0x91#8)))).map Response.value) =
    [some 1, some 0, some 0, some 1, some 1, some 0, some 0, some 0] := by decide

/-- The six getters of byte 13 on 0xE1. -/
theorem test_getb_byte13 :
    [Instr.getbHome, .getbShot, .getbLs, .getbRs, .getbMinus, .getbPlus].map
      (fun i => (answerOf (exec i (holding (activeReset.set 13 0xE1#8)))).map Response.value) =
    [some 0, some 1, some 1, some 0, some 0, some 0] := by decide

/-- Each setter from bytes 12, 13 = `00 00`. -/
theorem test_setb_sets :
    [Instr.setbL true, .setbR true, .setbZl true, .setbZr true, .setbA true, .setbB true, .setbY true, .setbX true,
      .setbHome true, .setbShot true, .setbLs true, .setbRs true, .setbMinus true, .setbPlus true].map
      (fun i => ((rec0 (exec i State.reset)).drop 12).take 2) =
    [[0x10, 0], [0x20, 0], [0x40, 0], [0x80, 0], [0x01, 0], [0x02, 0], [0x04, 0], [0x08, 0],
      [0, 0x10], [0, 0x20], [0, 0x01], [0, 0x02], [0, 0x04], [0, 0x08]] := by decide

/-- Each setter from bytes 12, 13 = `FF FF`. -/
theorem test_setb_clears :
    [Instr.setbL false, .setbR false, .setbZl false, .setbZr false, .setbA false, .setbB false, .setbY false, .setbX false,
      .setbHome false, .setbShot false, .setbLs false, .setbRs false, .setbMinus false, .setbPlus false].map
      (fun i => ((rec0 (exec i (holding ff))).drop 12).take 2) =
    [[0xEF, 0xFF], [0xDF, 0xFF], [0xBF, 0xFF], [0x7F, 0xFF], [0xFE, 0xFF], [0xFD, 0xFF], [0xFB, 0xFF], [0xF7, 0xFF],
      [0xFF, 0xEF], [0xFF, 0xDF], [0xFF, 0xFE], [0xFF, 0xFD], [0xFF, 0xFB], [0xFF, 0xF7]] := by decide

/-! ## D-pad (section 6) -/

theorem test_setdp :
    (rec0 (exec (.setdp .left) (holding ff))).drop 14 = [0xF7, 0xFF] ∧
    (rec0 (exec (.setdp .padding) State.reset)).drop 14 = [0x0F, 0x02] ∧
    (rec0 (exec (.setdp .notPressed) (holding (activeReset.set 14 0xA8#8)))).drop 14 = [0xA0, 0x02] := by decide

theorem test_getdp :
    answerOf (exec .getdp (holding (activeReset.set 14 0xF3#8))) = some ⟨.ok, 3⟩ ∧
    answerOf (exec .getdp (holding (activeReset.set 14 0x09#8))) = some ⟨.formatError, 0⟩ ∧
    answerOf (exec .getdp (holding (activeReset.set 14 0xFE#8))) = some ⟨.formatError, 0⟩ ∧
    answerOf (exec .getdp (holding ff)) = some ⟨.ok, 15⟩ := by decide

/-! ## Whole records (section 7) -/

theorem test_ispad :
    answerOf (exec .ispad (holding ff)) = some ⟨.ok, 1⟩ ∧
    answerOf (exec .ispad (holding (ff.set 8 0x7F#8))) = some ⟨.ok, 0⟩ ∧
    answerOf (exec .ispad (holding (ff.set 15 0x02#8))) = some ⟨.ok, 0⟩ := by decide

theorem test_setpad :
    rec0 (exec (.setpad true) (holding sample)) = ff ∧ rec0 (exec (.setpad false) (holding sample)) = activeReset ∧
    (after (exec (.setpad false) (holding ff))).fm = [] := by decide

theorem test_enc :
    (after (exec .enc (holding sample))).snk = some sample ∧
    (after (exec .enc (after (exec .enc (holding sample))))).snk = some (sample ++ sample) := by decide

/-- A source of seventeen bytes (section 7). -/
def source17 : Source := ⟨[0x11, 0x22, 0x33, 0x44, 0x55, 0x66, 0x77, 0x88, 0x99, 0xAA, 0xBB, 0xCC, 0xDD, 0xEE, 0x9A, 0x77, 1], 0⟩

theorem test_dec_loads :
    rec0 (exec .dec (State.reset.setSrc source17)) = source17.bytes.take 16 ∧
    (after (exec .dec (State.reset.setSrc source17))).src = some ⟨source17.bytes, 16⟩ ∧
    answerOf (exec .getdp (after (exec .dec (State.reset.setSrc source17)))) = some ⟨.formatError, 0⟩ ∧
    answerOf (exec .getjLh (after (exec .dec (State.reset.setSrc source17)))) = some ⟨.ok, 6673⟩ := by decide

/-- The second DEC finds one byte: record 1, the registers and the sink are untouched, whatever the free values are. -/
theorem test_dec_short :
    answerOf (exec .dec (State.reset.setSrc ⟨source17.bytes, 16⟩)) = some ⟨.formatError, 0⟩ ∧
    (after (exec .dec (State.reset.setSrc ⟨source17.bytes, 16⟩))).snk = some [] ∧
    (after (exec .dec (State.reset.setSrc ⟨source17.bytes, 16⟩))).draws = 1 := ⟨rfl, rfl, rfl⟩

/-! ## Frame store (section 8) -/

theorem test_wnext_writes_slot :
    rec0 (exec (.wnext [.setj .lh 100, .setb .a true]) (holding ff)) =
      [0x64, 8, 0, 8, 0, 8, 0, 8, 0, 0, 0, 0, 1, 0, 0, 2] ∧
    rec0 (exec (.wnext [.setb .a true, .setpad false, .setb .b true]) State.reset) =
      [0, 8, 0, 8, 0, 8, 0, 8, 0, 0, 0, 0, 2, 0, 0, 2] ∧
    (after (exec (.wnext []) State.reset)).cur = 1 := by decide

theorem test_wnext_errors :
    answerOf (exec (.wnext [.setb .a true, .sett .zl 256, .setb .b true]) State.reset) = some ⟨.rangeError, 0⟩ ∧
    rec0 (exec (.wnext [.setb .a true, .sett .zl 256, .setb .b true]) State.reset) =
      [0, 8, 0, 8, 0, 8, 0, 8, 0, 0, 0, 0, 1, 0, 0, 2] ∧
    (after (exec (.wnext [.setb .a true, .sett .zl 256, .setb .b true]) State.reset)).cur = 0 ∧
    answerOf (exec (.wnext [.sett .zl 999]) (State.reset.setCur 65536)) = some ⟨.capacityError, 0⟩ := by decide

theorem test_finish :
    ((after (exec .finish (after (exec (.wnext []) State.reset)))).bytesAt 14 4) = [0x00, 0x02, 0xFF, 0xFF] ∧
    (after (exec .finish (State.reset.setCur 65536))).fm = [] := by decide +kernel

theorem test_getw :
    (after (exec (.getw 65535) State.reset)).wsel = 65535#16 ∧
    exec (.getw 65536) (State.reset.setWsel 7) = .next ((State.reset.setWsel 7).respond .indexError 0) ∧
    exec (.getw (-1)) (State.reset.setWsel 7) = .next ((State.reset.setWsel 7).respond .indexError 0) :=
  ⟨by decide, rfl, rfl⟩

/-- The first bytes that SER emits after FINISH, from one active record on. -/
theorem test_ser :
    ((after (exec .ser (after (exec .finish (after (exec (.wnext []) State.reset)))))).snk.map fun bs => bs.take 18) =
      some (activeReset ++ [0xFF, 0xFF]) := by decide +kernel

/-- DESER of the first forty bytes (section 8): two records loaded, `FormatError`. -/
theorem test_deser_short :
    answerOf (exec .deser (State.reset.setSrc ⟨activeReset ++ ff ++ ff.take 8, 0⟩)) = some ⟨.formatError, 0⟩ ∧
    (after (exec .deser (State.reset.setSrc ⟨activeReset ++ ff ++ ff.take 8, 0⟩))).byteAt 31 = 0xFF#8 ∧
    (after (exec .deser (State.reset.setSrc ⟨activeReset ++ ff ++ ff.take 8, 0⟩))).byteAt 49 = 0x08#8 := by
  have h : after (exec .deser (State.reset.setSrc ⟨activeReset ++ ff ++ ff.take 8, 0⟩)) =
      (((((State.reset.setRecord 0 (activeReset ++ ff)).setRecord 2 (freeRecord 0)).setSrc
        (shortReadSource ⟨activeReset ++ ff ++ ff.take 8, 32⟩ 0)).draw).respond .formatError 0) := rfl
  refine ⟨rfl, ?_, ?_⟩
  · rw [h]
    simp [State.byteAt_setRecord, activeReset, ff]
  · rw [h]
    simp [State.byteAt_setRecord, activeReset, ff]
    rfl

/-- DESER with 1,048,577 bytes available (section 8): completes, the last byte stays unread. -/
theorem test_deser_full (bs : List Byte) (h : bs.length = 1048577) :
    answerOf (exec .deser (State.reset.setSrc ⟨bs, 0⟩)) = some ⟨.ok, 0⟩ ∧
    ((after (exec .deser (State.reset.setSrc ⟨bs, 0⟩))).src.map Source.pos) = some 1048576 := by
  have hw : wholeRecords ⟨bs, 0⟩ = 65536 := by simp [wholeRecords, Source.avail, h]
  have he : exec .deser (State.reset.setSrc ⟨bs, 0⟩) = answer 0 (loadRecords ⟨bs, 0⟩ (State.reset.setSrc ⟨bs, 0⟩)) := by
    simp [exec, execDeser, State.setSrc, hw]
  rw [he]
  simp [answer, answerOf, after, loadRecords, hw, Source.advance, State.respond, State.setSrc, State.setRecord,
    State.setBytes, State.reset]

theorem test_cinit :
    (after (exec .cinit (after (exec (.wnext [.setb .a true]) ((holding ff).setWsel 9))))).fm = [] ∧
    (after (exec .cinit (after (exec (.wnext [.setb .a true]) ((holding ff).setWsel 9))))).cur = 0 ∧
    (after (exec .cinit (after (exec (.wnext [.setb .a true]) ((holding ff).setWsel 9))))).wsel = 0 := by decide

/-! ## Steps -/

theorem test_step_takes_group :
    (after (step (State.reset.setCmds [0x000001C1, 0x00000167, 0x000000C2]))).cmds = [0x000000C2] ∧
    (after (step (State.reset.setCmds [0x000001C1, 0x00000167, 0x000000C2]))).cur = 1 := by decide

theorem test_step_illegal :
    step (State.reset.setCmds [0x00000971, 0x00000070]) =
      .next ((State.reset.setCmds [0x00000070]).respond .illegalCommand 0) := rfl

/-! ## Assembler and pseudo-instructions (R65 to R67) -/

theorem test_assemble :
    assemble "SETJ.LH -100 # left\ngetw 0xFFFF\n\nsetdp RIGHT\nsetpad true\nser" =
      some [.setjLh (-100), .getw 65535, .setdp .right, .setpad true, .ser] ∧ assemble "setb.a 2" = none := by decide +kernel

theorem test_assemble_group :
    assemble ("wnext " ++ String.singleton (Char.ofNat 0x7B) ++ " setj.lh 100 ; setb.a 1 " ++
      String.singleton (Char.ofNat 0x7D)) = some [.wnext [.setj .lh 100, .setb .a true]] := by decide +kernel

theorem test_pseudo :
    (expandIter fun _ => [.ispad]).take 4 = [.getw 0, .ispad, .getw 1, .ispad] ∧ (expandSummary false).length = 22 ∧
    expandSummary true = [.ispad] := by decide +kernel

/-! ## Witnesses: for every statement with hypotheses, a state and operands that meet them, at the boundaries -/

/-- The reset state with the given words presented. -/
def given (ws : List Word) : State := State.reset.setCmds ws

/-- The reset state with the given parameters and record 0 padding. -/
def padded (pr : Config.PaddedRead) : State := { holding ff with params := ⟨.activeCentred, pr, false⟩ }

theorem witness_StepRunsDecodedCommand :
    (given [0x000001C1, 0x00000167, 0x10]).cmds = 0x000001C1 :: [0x00000167, 0x10] ∧
    decodeCmd 0x000001C1 [0x00000167, 0x10] = (.ok (.wnext [.setb .x true]), [0x10]) := by decide

/-- One illegal encoding for each of the items 1 to 4 of R63, at the boundaries of its range. -/
theorem witness_IllegalCommandAnswered :
    (given [0x0F]).cmds = [0x0F] ∧ illegalWord 0x0F ∧ illegalWord 0x110 ∧ illegalWord 0x281 ∧
    illegalWord 0x971 ∧ illegalWord 0xE71 ∧ illegalWord 0x1071 :=
  ⟨rfl, .inl (by decide), .inr (.inl (by decide)), .inr (.inr (.inl (by decide))), .inr (.inr (.inr (by decide))),
    .inr (.inr (.inr (by decide))), .inr (.inr (.inr (by decide)))⟩

/-- Groups that break R62: the count's high bits, the list too short, a member not a mutator, a member illegal. -/
theorem witness_IllegalCommandAnswered_groups :
    illegalGroup 0x010000C1 [] ∧ illegalGroup 0x2C1 [0x164] ∧ illegalGroup 0x1C1 [0x10] ∧ illegalGroup 0x1C1 [0x264] :=
  ⟨⟨by decide, .inl (by decide)⟩, ⟨by decide, .inr (.inl (by decide))⟩,
    ⟨by decide, .inr (.inr ⟨0x10, by decide, .inl (by decide)⟩)⟩,
    ⟨by decide, .inr (.inr ⟨0x264, by decide, .inr (by decide)⟩)⟩⟩

/-- Legal words next to the boundaries of R63, so that neither side of the equivalence is empty. -/
theorem witness_DecoderRefusesExactlyIllegal :
    ¬illegalWord 0x10 ∧ ¬illegalWord 0x181 ∧ ¬illegalWord 0x871 ∧ ¬illegalWord 0xF71 ∧ ¬illegalWord 0xC5 ∧
    ¬illegalWord 0x1C1 ∧ opNat 0xC5 ≠ 0xC1 :=
  ⟨by decide, by decide, by decide, by decide, by decide, by decide, by decide⟩

theorem witness_IdleWithoutCommand : State.reset.cmds = [] := rfl

theorem witness_DecodeEncodeRoundTrip :
    (Instr.setjLh (-8388608)).wellFormed = true ∧ (Instr.getw 8388607).wellFormed = true ∧ Instr.deser.wellFormed = true ∧
    (Instr.wnext [.sett .zr 8388607, .setdp .padding, .setpad false]).wellFormed = true := by decide

theorem witness_EncodeDecodeRoundTrip : decodeCmd 0x80000020 [7] = (.ok (.setjLh (-8388608)), [7]) := by decide

theorem witness_PlacedInstructionRunsNext :
    decodeTableWord 32 0x00FFFFC3 = some (.getw 65535) ∧ decodeTableWord 32 0xC1 = some (.wnext []) := by decide

/-- A full step from a state that meets the invariant: the hypotheses of the statements about every step. -/
theorem witness_steps :
    (given [0x164]).Inv ∧ (given [0x164]).cmds ≠ [] ∧
    step (given [0x164]) = .next (after (step (given [0x164]))) := ⟨by decide, by decide, rfl⟩

theorem witness_ResponsePacking :
    (-2147483648 : Int) ≤ (⟨.ok, -2147483648⟩ : Response).value ∧ (⟨.ok, 2147483647⟩ : Response).value ≤ 2147483647 := by
  decide

theorem witness_CursorWrittenOnlyByWnextAndCinit :
    exec (.wnext []) State.reset = .next (after (exec (.wnext []) State.reset)) ∧
    exec .cinit (State.reset.setCur 5) = .next (after (exec .cinit (State.reset.setCur 5))) := ⟨rfl, rfl⟩

theorem witness_WordSelectWrittenOnlyByGetwAndCinit :
    exec (.getw 65535) State.reset = .next (after (exec (.getw 65535) State.reset)) := rfl

theorem witness_CodecChangesOnlyTargetRecord :
    isCodec (.setpad true) = true ∧
    exec (.setpad true) (State.reset.setWsel 65535) = .next (after (exec (.setpad true) (State.reset.setWsel 65535))) :=
  ⟨rfl, rfl⟩

/-- The invariant holds somewhere, and without it a step can fault. -/
theorem witness_NoFaultInInvariantStates :
    (State.reset.setCur 65536).Inv ∧
    step ((given [0xC1]).setCur 65537) = .fault .outsideFrameMemory := ⟨by decide, rfl⟩

/-- The launch state without streams, with no command. -/
def noStreams : State := { State.reset with src := none, snk := none }

theorem witness_RefusalOnlyForStreams :
    step (noStreams.setCmds [0x83]) = .refused .noByteSource ∧ step (noStreams.setCmds [0xC4]) = .refused .noByteSink ∧
    step { given [0x82] with params := ⟨.activeCentred, .algorithmic, true⟩ } = .refused .sinkMayFail := ⟨rfl, rfl, rfl⟩

theorem witness_EveryCommandAnswered : State.reset.Inv ∧ State.reset.StreamsReady := by decide

theorem witness_StreamCommandsRefusedWithoutStream :
    noStreams.src = none ∧ noStreams.params.sinkFails = false ∧ noStreams.snk = none := ⟨rfl, rfl, rfl⟩

/-- A sink that may fail, attached and not attached (the order of the two refusals is log entry 11). -/
theorem witness_StreamCommandsRefusedWithoutStream_sinkFails :
    ({ State.reset with params := ⟨.activeCentred, .algorithmic, true⟩ } : State).params.sinkFails = true ∧
    exec .enc { State.reset with params := ⟨.activeCentred, .algorithmic, true⟩ } = .refused .sinkMayFail ∧
    exec .ser { noStreams with params := ⟨.activeCentred, .algorithmic, true⟩ } = .refused .sinkMayFail := ⟨rfl, rfl, rfl⟩

/-- Bounds of the load/store unit's statements: `k ≤ 14`, `k ≤ 15`, `c ≤ 15`. -/
theorem witness_lsu :
    ((State.reset.st16le 65535 14 65535).ld16le 65535 14) = 65535 ∧ ((State.reset.st8 0 15 0xFF#8).ld8 0 15) = 0xFF#8 ∧
    ((State.reset.bwrite 0 15 0x80#8 true).btest 0 15 0x80#8) = true ∧ ((State.reset.nibwr 0 15 15).nibrd 0 15) = 15 := by
  decide

/-- Getters that are not free reads: an active record, and a padding record under the default parameter. -/
theorem witness_getters :
    State.reset.readsFree State.reset.target = false ∧
    (padded .algorithmic).readsFree (padded .algorithmic).target = false := by decide

theorem witness_PaddedReadAnyIsFree :
    (padded .any).params.paddedRead = .any ∧
    ∀ k, k < 16 → (padded .any).byteAt (byteAddr (padded .any).target k) = 0xFF#8 := by decide

theorem witness_PaddingRecordFieldViews :
    (padded .algorithmic).params.paddedRead = .algorithmic ∧
    ∀ k, k < 16 → (padded .algorithmic).byteAt (byteAddr (padded .algorithmic).target k) = 0xFF#8 := by decide

theorem witness_JoystickSetThenGet :
    answerOf (exec .getjRv (after (exec (.setjRv (-2048)) (padded .any)))) = some ⟨.ok, -2048⟩ ∧
    answerOf (exec .getjRv (after (exec (.setjRv 2047) (padded .any)))) = some ⟨.ok, 2047⟩ := by decide

theorem witness_SetTrigger_boundaries :
    answerOf (exec (.settZl 0) State.reset) = some ⟨.ok, 0⟩ ∧ answerOf (exec (.settZl 255) State.reset) = some ⟨.ok, 0⟩ ∧
    answerOf (exec (.settZl (-1)) State.reset) = some ⟨.rangeError, 0⟩ ∧
    answerOf (exec (.settZl 256) State.reset) = some ⟨.rangeError, 0⟩ := by decide

theorem witness_ButtonLanesAreIndependent :
    Button.l ≠ Button.home ∧ exec (ofMutator (.setb .l true)) State.reset =
      .next (after (exec (ofMutator (.setb .l true)) State.reset)) := ⟨by decide, rfl⟩

/-- The codes where the two clauses of GETDP meet. -/
theorem witness_GetDpad_boundaries :
    ([8, 9, 14, 15].map fun n => (answerOf (exec .getdp (holding (activeReset.set 14 (BitVec.ofNat 8 n))))).map
      Response.status) = [some .ok, some .formatError, some .formatError, some .ok] := by decide

theorem witness_SetDpad_illegal_boundaries :
    ([9, 14, 16, 16777215].map fun n => (decodeCmd (BitVec.ofNat 32 (256 * n + 0x71)) []).1.toOption) =
      [none, none, none, none] := by decide +kernel

theorem witness_IspadTellsPadding :
    (∀ k, k < 16 → (holding ff).byteAt (byteAddr (holding ff).target k) = 0xFF#8) ∧
    (15 < 16 ∧ State.reset.byteAt (byteAddr State.reset.target 15) ≠ 0xFF#8) := by decide

theorem witness_sink : State.reset.params.sinkFails = false ∧ State.reset.snk = some [] := ⟨rfl, rfl⟩

theorem witness_DecodeLoadsRecordOrFails :
    (State.reset.setSrc source17).src = some source17 ∧ 16 ≤ source17.avail ∧ (source17.advance 2).avail < 16 ∧
    (source17.advance 1).avail = 16 := by decide

theorem witness_EncodeThenDecodeRestores :
    exec .enc (holding sample) = .next (after (exec .enc (holding sample))) ∧ (holding sample).snk = some [] ∧
    (after (exec .enc (holding sample))).snk = some ([] ++ sample) ∧
    (State.reset.setSrc ⟨sample ++ [1], 0⟩).src = some ⟨sample ++ [1], 0⟩ ∧ ((sample ++ [1]).drop 0).take 16 = sample := by
  refine ⟨rfl, rfl, ?_, rfl, rfl⟩
  decide

theorem witness_CinitIsReset :
    answerOf (exec .cinit { State.reset with params := ⟨.activeUncentred, .any, true⟩ }) = some ⟨.ok, 0⟩ ∧
    (after (exec .cinit { State.reset with params := ⟨.activeUncentred, .any, true⟩ })).byteAt 1 = 0#8 := by decide

theorem witness_WnextCompletes :
    (State.reset.setCur 65535).cur < 65536 ∧
    [Mutator.setj .lh (-2048), .sett .zl 255, .setdp .padding].all mutatorInDomain = true ∧
    Mutator.setpad true ∉ [Mutator.setj .lh (-2048), .sett .zl 255, .setdp .padding] := by decide

theorem witness_WnextCapacityError :
    (State.reset.setCur 65536).cur = 65536 ∧
    exec (.wnext []) (State.reset.setCur 65536) = .next ((State.reset.setCur 65536).respond .capacityError 0) ∧
    Answered (State.reset.setCur 65536) ((State.reset.setCur 65536).respond .capacityError 0) .capacityError 0 :=
  ⟨rfl, rfl, rfl⟩

theorem witness_WnextStopsAtFirstRangeError :
    State.reset.cur < 65536 ∧ [Mutator.setb .b true].all mutatorInDomain = true ∧
    mutatorInDomain (.setj .rh 2048) = false ∧
    exec (.wnext [.setb .b true]) State.reset = .next (after (exec (.wnext [.setb .b true]) State.reset)) :=
  ⟨by decide, rfl, rfl, rfl⟩

theorem witness_ContainerCapacity :
    (∀ ms ∈ [[], [Mutator.setb .a true]], ms.all mutatorInDomain = true) ∧
    (State.reset.setCur 65534).cur + [[], [Mutator.setb .a true]].length ≤ 65536 := by decide

theorem witness_FinishIsRecordLoop : (State.reset.setCur 65535).Inv := by decide

theorem witness_Getw_boundaries :
    ([0, 65535, -1, 65536].map fun i => (answerOf (exec (.getw i) State.reset)).map Response.status) =
      [some .ok, some .ok, some .indexError, some .indexError] := by decide

/-- A full source and one that is a byte short. -/
theorem witness_DeserializeLoadsOrFails :
    ∃ sr sr' : Source, (State.reset.setSrc sr).src = some sr ∧ 1048576 ≤ sr.avail ∧
      (State.reset.setSrc sr').src = some sr' ∧ sr'.avail < 1048576 := by
  have h : ∀ n, (Source.mk (List.replicate n 0) 0).avail = n := fun n => by
    rw [Source.avail, List.length_replicate, Nat.sub_zero]
  exact ⟨_, _, rfl, Nat.le_of_eq (h 1048576).symm, rfl, Nat.lt_of_le_of_lt (Nat.le_of_eq (h 1048575)) (by decide)⟩

theorem witness_DeserializeIsRecordLoop : State.reset.Inv ∧ State.reset.src = some ⟨[], 0⟩ := by decide

/-- A body of codec commands with a store, a stream command and a getter, and a state it may run from. -/
theorem witness_IterationEndsAtLastRecord :
    (∀ i, i < 65536 → ((fun _ => [.setjLh 1, .enc, .getdp] : Nat → List Instr) i).all isCodec = true) ∧
    State.reset.Inv ∧ State.reset.StreamsReady := ⟨fun _ _ => rfl, by decide, by decide⟩

/-- The reset memory serialized, and a source that holds those bytes. -/
theorem witness_SerializeThenDeserializeRestores :
    ∃ (s t u : State) (out bs : List Byte) (sr : Source), s.Inv ∧ u.Inv ∧ u.params.initWord = s.params.initWord ∧
      exec .ser s = .next t ∧ s.snk = some out ∧ t.snk = some (out ++ bs) ∧ u.src = some sr ∧
      (sr.bytes.drop sr.pos).take 1048576 = bs := by
  have hs : ∀ bs, sinkWrite bs State.reset = .next ((State.reset.setSnk ([] ++ bs)).respond .ok 0) := fun _ => rfl
  have he : exec .ser State.reset = sinkWrite (State.reset.bytesAt 0 fileBytes) State.reset := rfl
  have hl : (State.reset.bytesAt 0 fileBytes).length = 1048576 := State.reset.bytesAt_length _ _
  rw [hs] at he
  generalize State.reset.bytesAt 0 fileBytes = bs at he hl
  have hi : State.reset.Inv := by decide
  refine ⟨State.reset, _, State.reset.setSrc ⟨bs, 0⟩, [], bs, ⟨bs, 0⟩, hi, ⟨hi.1, hi.2.1, ?_⟩, rfl, he,
    rfl, rfl, rfl, ?_⟩
  · intro sr h
    cases h
    exact Nat.zero_le _
  · rw [List.drop_zero, List.take_of_length_le (Nat.le_of_eq hl)]

end Sys2Proof.Tests
end

section
/-! PROOFS. The statement of 00_scope.md on the open parameters (R3): no update of the state writes them, so no command and no step does. -/

namespace Sys2Proof.Machine

/-! ## What one step can do -/

/-- Everything a step can do (R4, R235, R244): stay idle, execute the decoded command, or answer an illegal one. -/
theorem step_cases (s : State) :
    (s.cmds = [] ∧ step s = .next s) ∨
    (∃ w ws i rest, s.cmds = w :: ws ∧ decodeCmd w ws = (.ok i, rest) ∧ step s = exec i (s.setCmds rest)) ∨
    (∃ w ws e rest, s.cmds = w :: ws ∧ decodeCmd w ws = (.error e, rest) ∧
      step s = .next ((s.setCmds rest).respond .illegalCommand 0)) := by
  unfold step takeCommand
  cases hc : s.cmds with
  | nil => exact .inl ⟨rfl, rfl⟩
  | cons w ws =>
    rcases hd : decodeCmd w ws with ⟨r, rest⟩
    cases r with
    | ok i => exact .inr (.inl ⟨w, ws, i, rest, rfl, hd, by simp only [hd]⟩)
    | error e => exact .inr (.inr ⟨w, ws, e, rest, rfl, hd, by simp only [hd, raise_eq]⟩)

/-! ## The parameters after the updates made of several -/

@[simp] theorem State.setRecord_params (s : State) (t : Nat) (bs : List Byte) :
    (s.setRecord t bs).params = s.params := rfl

@[simp] theorem shortRead_params (s : State) (t : Nat) (sr : Source) : (shortRead t sr s).params = s.params := rfl

/-! ## Commands that keep the parameters -/

/-- A result that, when it is a next state, has the parameters of `s`. -/
def KeepsParams (s : State) (r : Result) : Prop := ∀ t, r = .next t → t.params = s.params

variable {s : State} {r : Result}

@[simp] theorem keepsParams_next (t : State) : KeepsParams s (.next t) ↔ t.params = s.params := by
  simp [KeepsParams]

@[simp] theorem keepsParams_fault (f : Fault) : KeepsParams s (.fault f) := nofun

@[simp] theorem keepsParams_refused (f : Refusal) : KeepsParams s (.refused f) := nofun

theorem OnlyAnswers.keepsParams (h : OnlyAnswers s r) : KeepsParams s r := by
  obtain ⟨st, v, -, -, rfl | rfl⟩ := h <;> simp

theorem StoresInTarget.keepsParams (h : StoresInTarget s r) : KeepsParams s r := by
  obtain ⟨x, bs, -, -, rfl⟩ := h
  simp

variable (s)

theorem sinkWrite_keepsParams (bs : List Byte) : KeepsParams s (sinkWrite bs s) := by
  obtain ⟨-, h⟩ | ⟨-, -, h⟩ | ⟨out, -, -, h⟩ := sinkWrite_cases s bs <;> simp [h]

theorem execDec_keepsParams : KeepsParams s (execDec s) := by
  obtain ⟨-, h⟩ | ⟨sr, -, -, h⟩ | ⟨sr, -, -, h⟩ := execDec_cases s <;> simp [h]

theorem execDeser_keepsParams : KeepsParams s (execDeser s) := by
  obtain ⟨-, h⟩ | ⟨sr, n, -, -, -, h⟩ | ⟨sr, -, -, h⟩ := execDeser_cases s <;> simp [h]

theorem execWnext_keepsParams (ms : List Mutator) : KeepsParams s (execWnext ms s) := by
  obtain ⟨-, h⟩ | ⟨-, h⟩ | ⟨m, -, -, -, ⟨-, h⟩ | ⟨-, h⟩⟩ := execWnext_cases s ms <;> simp [h]

theorem execGetw_keepsParams (i : Int) : KeepsParams s (execGetw i s) := by
  unfold execGetw
  split
  · simp [raise_eq]
  · simp [answer_eq]

theorem exec_codec_keepsParams (i : Instr) (hi : isCodec i = true) : KeepsParams s (exec i s) := by
  obtain h | h | rfl | rfl := exec_codec_cases s i hi
  · exact h.keepsParams
  · exact h.keepsParams
  · exact sinkWrite_keepsParams s _
  · exact execDec_keepsParams s

theorem exec_keepsParams (i : Instr) : KeepsParams s (exec i s) := by
  cases i with
  | cinit => exact (keepsParams_next _).2 rfl
  | wnext ms => exact execWnext_keepsParams s ms
  | finish => exact (keepsParams_next _).2 rfl
  | getw j => exact execGetw_keepsParams s j
  | ser => exact sinkWrite_keepsParams s _
  | deser => exact execDeser_keepsParams s
  | _ => exact exec_codec_keepsParams s _ rfl

theorem step_keepsParams : KeepsParams s (step s) := by
  obtain ⟨-, h⟩ | ⟨w, ws, i, rest, -, -, h⟩ | ⟨w, ws, e, rest, -, -, h⟩ := step_cases s
  · simp [h]
  · rw [h]
    exact exec_keepsParams (s.setCmds rest) i
  · simp [h]

/-- Settles O14: every way a step can end is a chain of state updates, and none of them writes the parameters. -/
theorem parametersNeverChange : Obligations.ParametersNeverChange := step_keepsParams

end Sys2Proof.Machine
end

section
/-! PROOFS. The statements of 10_state.md on the invariant (R13, R16, R22), the two registers (R13, R14) and the record a codec command may write (R12). -/

namespace Sys2Proof.Machine

/-! ## A property of the state a command answers -/

/-- If the result is a next state, that state satisfies `P`. -/
def Ensures (P : State → Prop) (r : Result) : Prop := ∀ t, r = .next t → P t

variable {P Q : State → Prop} {s : State} {r : Result}

@[simp] theorem ensures_next {t : State} : Ensures P (.next t) ↔ P t := by
  simp [Ensures]

@[simp] theorem ensures_fault (f : Fault) : Ensures P (.fault f) := nofun

@[simp] theorem ensures_refused (f : Refusal) : Ensures P (.refused f) := nofun

theorem Ensures.mono (h : Ensures P r) (hPQ : ∀ t, P t → Q t) : Ensures Q r := fun t ht => hPQ t (h t ht)

/-- A command that writes to the sink ensures what holds of the state with its sink extended and the answer `(OK, 0)`. -/
theorem sinkWrite_ensures {bs : List Byte} (h : ∀ out, P ((s.setSnk out).respond .ok 0)) :
    Ensures P (sinkWrite bs s) := by
  obtain ⟨-, e⟩ | ⟨-, -, e⟩ | ⟨out, -, -, e⟩ := sinkWrite_cases s bs <;> rw [e]
  · exact ensures_refused _
  · exact ensures_refused _
  · exact ensures_next.2 (h _)

/-- Everything `GETW` can do (R203). -/
theorem execGetw_cases (s : State) (i : Int) :
    ((i < 0 ∨ 65535 < i) ∧ execGetw i s = .next (s.respond .indexError 0)) ∨
    (0 ≤ i ∧ i ≤ 65535 ∧ execGetw i s = .next ((s.setWsel (BitVec.ofInt 16 i)).respond .ok 0)) := by
  by_cases h : i < 0 ∨ 65535 < i
  · exact .inl ⟨h, if_pos h⟩
  · exact .inr ⟨by omega, by omega, if_neg h⟩

/-! ## The invariant after each update -/

/-- The record that WSEL selects lies inside the frame memory (R14). -/
theorem State.target_lt (s : State) : s.target < 65536 := s.wsel.isLt

theorem State.Inv.respond (h : s.Inv) (st : Status) (v : Int) : (s.respond st v).Inv := h

theorem State.Inv.draw (h : s.Inv) : s.draw.Inv := h

theorem State.Inv.setCmds (h : s.Inv) (ws : List Word) : (s.setCmds ws).Inv := h

theorem State.Inv.setSnk (h : s.Inv) (out : List Byte) : (s.setSnk out).Inv := h

theorem State.Inv.setWsel (h : s.Inv) (i : BitVec 16) : (s.setWsel i).Inv := h

theorem State.Inv.setCur (h : s.Inv) {n : Nat} (hn : n ≤ 65536) : (s.setCur n).Inv := ⟨h.1, hn, h.2.2⟩

theorem State.Inv.construct (h : s.Inv) : s.construct.Inv := ⟨Memory.nil_wf _, Nat.zero_le _, h.2.2⟩

theorem State.Inv.setSrc (h : s.Inv) {sr : Source} (hsr : sr.pos ≤ sr.bytes.length) : (s.setSrc sr).Inv :=
  ⟨h.1, h.2.1, by simpa [State.sourceInside] using hsr⟩

theorem State.Inv.setBytes (h : s.Inv) {x : Nat} {bs : List Byte} (hx : x + bs.length ≤ 1048576) :
    (s.setBytes x bs).Inv :=
  ⟨s.setBytes_wf h.1 hx, h.2⟩

theorem State.Inv.setRecord (h : s.Inv) {t : Nat} {bs : List Byte} (ht : 16 * t + bs.length ≤ 1048576) :
    (s.setRecord t bs).Inv :=
  h.setBytes ht

/-- The position stays inside the source when no more than the unread bytes are taken (R16). -/
theorem Source.advance_inside {sr : Source} (h : sr.pos ≤ sr.bytes.length) {n : Nat} (hn : n ≤ sr.avail) :
    (sr.advance n).pos ≤ (sr.advance n).bytes.length := by
  simp only [Source.avail, Source.advance] at hn ⊢
  omega

theorem shortReadSource_inside {sr : Source} (h : sr.pos ≤ sr.bytes.length) (d : Nat) :
    (shortReadSource sr d).pos ≤ (shortReadSource sr d).bytes.length :=
  Source.advance_inside h (Nat.le_of_lt_succ (Nat.mod_lt _ (Nat.succ_pos _)))

/-- A short read of a record inside the frame memory keeps the invariant, whatever the free values are (R237). -/
theorem State.Inv.shortRead (h : s.Inv) {t : Nat} (ht : t < 65536) {sr : Source} (hsr : sr.pos ≤ sr.bytes.length) :
    (shortRead t sr s).Inv := by
  have hrec : (s.setRecord t (freeRecord s.draws)).Inv := h.setRecord (by rw [freeRecord_length]; omega)
  exact (hrec.setSrc (shortReadSource_inside hsr _)).draw

/-! ## Every command and every step keeps the invariant -/

theorem OnlyAnswers.inv (h : OnlyAnswers s r) (hs : s.Inv) : Ensures State.Inv r := by
  obtain ⟨st, v, -, -, rfl | rfl⟩ := h
  · exact ensures_next.2 (hs.respond st v)
  · exact ensures_next.2 (hs.draw.respond st v)

theorem StoresInTarget.inv (h : StoresInTarget s r) (hs : s.Inv) : Ensures State.Inv r := by
  obtain ⟨x, bs, -, hx, rfl⟩ := h
  have ht := s.target_lt
  exact ensures_next.2 ((hs.setBytes (by omega)).respond _ _)

theorem sinkWrite_inv (hs : s.Inv) (bs : List Byte) : Ensures State.Inv (sinkWrite bs s) :=
  sinkWrite_ensures fun out => (hs.setSnk out).respond _ _

theorem execDec_inv (hs : s.Inv) : Ensures State.Inv (execDec s) := by
  have ht := s.target_lt
  obtain ⟨-, e⟩ | ⟨sr, hsr, -, e⟩ | ⟨sr, hsr, ha, e⟩ := execDec_cases s <;> rw [e]
  · exact ensures_refused _
  · exact ensures_next.2 ((hs.shortRead ht (hs.2.2 sr hsr)).respond _ _)
  · have hrec : (s.setRecord s.target (sr.next 16)).Inv := hs.setRecord (by rw [Source.next_length]; omega)
    exact ensures_next.2 ((hrec.setSrc (Source.advance_inside (hs.2.2 sr hsr) ha)).respond _ _)

/-- The records a `DESER` loads lie inside the frame memory, and it takes no more than the unread bytes (R205). -/
theorem State.Inv.loadBytes (hs : s.Inv) {sr : Source} (hsr : s.src = some sr) {n : Nat} (hn : n ≤ 1048576)
    (ha : n ≤ sr.avail) : ((s.setRecord 0 (sr.next n)).setSrc (sr.advance n)).Inv := by
  have hrec : (s.setRecord 0 (sr.next n)).Inv := hs.setRecord (by rw [Source.next_length]; omega)
  exact hrec.setSrc (Source.advance_inside (hs.2.2 sr hsr) ha)

theorem execDeser_inv (hs : s.Inv) : Ensures State.Inv (execDeser s) := by
  obtain ⟨-, e⟩ | ⟨sr, n, hsr, hn, hlt, e⟩ | ⟨sr, hsr, ha, e⟩ := execDeser_cases s <;> rw [e]
  · exact ensures_refused _
  · have ha : 16 * n ≤ sr.avail := by omega
    have hload := hs.loadBytes hsr (by omega) ha
    exact ensures_next.2 ((hload.shortRead hlt (Source.advance_inside (hs.2.2 sr hsr) ha)).respond _ _)
  · exact ensures_next.2 ((hs.loadBytes hsr le_rfl ha).respond _ _)

theorem execWnext_inv (hs : s.Inv) (ms : List Mutator) : Ensures State.Inv (execWnext ms s) := by
  obtain ⟨-, e⟩ | ⟨-, e⟩ | ⟨m, hc, hwf, -, h⟩ := execWnext_cases s ms
  · exact e ▸ ensures_next.2 (hs.respond _ _)
  · exact e ▸ ensures_fault _
  · have hm : State.Inv { s with fm := m } := ⟨hwf hs.1, hs.2⟩
    obtain ⟨-, e⟩ | ⟨-, e⟩ := h <;> rw [e]
    · exact ensures_next.2 ((hm.setCur hc).respond _ _)
    · exact ensures_next.2 (hm.respond _ _)

/-- Records `CUR` to 65535 end where the frame memory ends (R202). -/
theorem execFinish_inv (hs : s.Inv) : Ensures State.Inv (execFinish s) := by
  have hc := hs.2.1
  exact ensures_next.2 ((hs.setRecord (by rw [padFrom_length]; omega)).respond _ _)

theorem execGetw_inv (hs : s.Inv) (i : Int) : Ensures State.Inv (execGetw i s) := by
  obtain ⟨-, e⟩ | ⟨-, -, e⟩ := execGetw_cases s i <;> rw [e]
  · exact ensures_next.2 (hs.respond _ _)
  · exact ensures_next.2 ((hs.setWsel _).respond _ _)

theorem exec_codec_inv (hs : s.Inv) (i : Instr) (hi : isCodec i = true) : Ensures State.Inv (exec i s) := by
  obtain h | h | rfl | rfl := exec_codec_cases s i hi
  · exact h.inv hs
  · exact h.inv hs
  · exact sinkWrite_inv hs _
  · exact execDec_inv hs

theorem exec_inv (hs : s.Inv) (i : Instr) : Ensures State.Inv (exec i s) := by
  cases i with
  | cinit => exact ensures_next.2 (hs.construct.respond _ _)
  | wnext ms => exact execWnext_inv hs ms
  | finish => exact execFinish_inv hs
  | getw j => exact execGetw_inv hs j
  | ser => exact sinkWrite_inv hs _
  | deser => exact execDeser_inv hs
  | _ => exact exec_codec_inv hs _ rfl

theorem step_inv (hs : s.Inv) : Ensures State.Inv (step s) := by
  obtain ⟨-, e⟩ | ⟨w, ws, i, rest, -, -, e⟩ | ⟨w, ws, err, rest, -, -, e⟩ := step_cases s <;> rw [e]
  · exact ensures_next.2 hs
  · exact exec_inv (hs.setCmds rest) i
  · exact ensures_next.2 ((hs.setCmds rest).respond _ _)

/-- Settles O11: every way a step can end is a chain of state updates, and each of them keeps the invariant. -/
theorem invariantKeptByStep : Obligations.InvariantKeptByStep := fun _ t hs => step_inv hs t

/-- Settles O10: no cell is listed, and CUR and the source position are 0. -/
theorem invariantAtReset : Obligations.InvariantAtReset :=
  ⟨Memory.nil_wf _, Nat.zero_le _, by simp [State.sourceInside, State.reset]⟩

/-! ## What a codec command leaves unchanged -/

/-- Every byte outside the target record and every piece of state the spec names are unchanged, the streams included. -/
def SameButTarget (s t : State) : Prop := SameOutside s t (byteAddr s.target 0) 16 ∧ SameSpecControl s t

/-- Storing a run of bytes that lies inside the `n` bytes from `a` on changes no byte outside them. -/
theorem State.sameOutside_setBytes (s : State) {x a n : Nat} {bs : List Byte} (ha : a ≤ x)
    (hn : x + bs.length ≤ a + n) : SameOutside s (s.setBytes x bs) a n := fun y hy => by
  rw [State.byteAt_setBytes, if_neg]
  omega

theorem State.sameOutside_setRecord (s : State) (t : Nat) {bs : List Byte} (hl : bs.length ≤ 16) :
    SameOutside s (s.setRecord t bs) (byteAddr t 0) 16 :=
  s.sameOutside_setBytes le_rfl (Nat.add_le_add_left hl _)

theorem OnlyAnswers.sameButTarget (h : OnlyAnswers s r) : Ensures (SameButTarget s) r := by
  obtain ⟨st, v, -, -, rfl | rfl⟩ := h
  · exact ensures_next.2 ⟨fun _ _ => rfl, rfl, rfl, rfl, rfl, rfl, rfl⟩
  · exact ensures_next.2 ⟨fun _ _ => rfl, rfl, rfl, rfl, rfl, rfl, rfl⟩

theorem StoresInTarget.sameButTarget (h : StoresInTarget s r) : Ensures (SameButTarget s) r := by
  obtain ⟨x, bs, hx, hx', rfl⟩ := h
  have hmem : SameOutside s (s.setBytes x bs) (byteAddr s.target 0) 16 := s.sameOutside_setBytes hx hx'
  exact ensures_next.2 ⟨hmem, rfl, rfl, rfl, rfl, rfl, rfl⟩

/-- What the codec command `i` leaves of `s` unchanged: `DEC` may move the source position, `ENC` may extend the sink
(R12, R33). -/
def CodecFrame (i : Instr) (s t : State) : Prop :=
  SameOutside s t (byteAddr s.target 0) 16 ∧ t.cur = s.cur ∧ t.wsel = s.wsel ∧ t.cmds = s.cmds ∧ t.params = s.params ∧
    (i ≠ .dec → t.src = s.src) ∧ (i ≠ .enc → t.snk = s.snk)

theorem SameButTarget.codecFrame {t : State} (h : SameButTarget s t) (i : Instr) : CodecFrame i s t := by
  obtain ⟨hmem, hcur, hwsel, hsrc, hsnk, hcmds, hparams⟩ := h
  exact ⟨hmem, hcur, hwsel, hcmds, hparams, fun _ => hsrc, fun _ => hsnk⟩

theorem execEnc_codecFrame (s : State) : Ensures (CodecFrame .enc s) (execEnc s) :=
  sinkWrite_ensures fun _ => ⟨fun _ _ => rfl, rfl, rfl, rfl, rfl, fun _ => rfl, fun h => absurd rfl h⟩

theorem execDec_codecFrame (s : State) : Ensures (CodecFrame .dec s) (execDec s) := by
  obtain ⟨-, e⟩ | ⟨sr, -, -, e⟩ | ⟨sr, -, -, e⟩ := execDec_cases s <;> rw [e]
  · exact ensures_refused _
  · exact ensures_next.2
      ⟨s.sameOutside_setRecord _ (freeRecord_length _).le, rfl, rfl, rfl, rfl, fun h => absurd rfl h, fun _ => rfl⟩
  · have hl : (sr.next 16).length ≤ 16 := by rw [Source.next_length]; omega
    exact ensures_next.2
      ⟨s.sameOutside_setRecord _ hl, rfl, rfl, rfl, rfl, fun h => absurd rfl h, fun _ => rfl⟩

theorem exec_codecFrame (s : State) (i : Instr) (hi : isCodec i = true) : Ensures (CodecFrame i s) (exec i s) := by
  obtain h | h | rfl | rfl := exec_codec_cases s i hi
  · exact h.sameButTarget.mono fun t ht => ht.codecFrame i
  · exact h.sameButTarget.mono fun t ht => ht.codecFrame i
  · exact execEnc_codecFrame s
  · exact execDec_codecFrame s

/-- Settles O17: a codec command stores only inside the record that WSEL selects, and only `DEC` and `ENC` move bytes of
the streams. -/
theorem codecChangesOnlyTargetRecord : Obligations.CodecChangesOnlyTargetRecord :=
  fun i s t hi => exec_codecFrame s i hi t

/-! ## Who writes the registers -/

/-- Neither register is written. -/
def SameRegisters (s t : State) : Prop := t.cur = s.cur ∧ t.wsel = s.wsel

theorem exec_codec_sameRegisters (s : State) (i : Instr) (hi : isCodec i = true) :
    Ensures (SameRegisters s) (exec i s) :=
  (exec_codecFrame s i hi).mono fun _ ⟨_, hcur, hwsel, _⟩ => ⟨hcur, hwsel⟩

theorem execSer_sameRegisters (s : State) : Ensures (SameRegisters s) (execSer s) :=
  sinkWrite_ensures fun _ => ⟨rfl, rfl⟩

theorem execDeser_sameRegisters (s : State) : Ensures (SameRegisters s) (execDeser s) := by
  obtain ⟨-, e⟩ | ⟨sr, n, -, -, -, e⟩ | ⟨sr, -, -, e⟩ := execDeser_cases s <;> rw [e]
  · exact ensures_refused _
  · exact ensures_next.2 ⟨rfl, rfl⟩
  · exact ensures_next.2 ⟨rfl, rfl⟩

/-- Every command but `WNEXT`, `GETW` and `CINIT` leaves both registers as they were (R13, R14). -/
theorem exec_register_cases (s : State) (i : Instr) :
    (∃ ms, i = .wnext ms) ∨ (∃ j, i = .getw j) ∨ i = .cinit ∨ Ensures (SameRegisters s) (exec i s) := by
  cases i with
  | wnext ms => exact .inl ⟨ms, rfl⟩
  | getw j => exact .inr (.inl ⟨j, rfl⟩)
  | cinit => exact .inr (.inr (.inl rfl))
  | finish => exact .inr (.inr (.inr (ensures_next.2 ⟨rfl, rfl⟩)))
  | ser => exact .inr (.inr (.inr (execSer_sameRegisters s)))
  | deser => exact .inr (.inr (.inr (execDeser_sameRegisters s)))
  | _ => exact .inr (.inr (.inr (exec_codec_sameRegisters s _ rfl)))

/-- `WNEXT` leaves WSEL as it was, and CUR too unless it answers OK (R201). -/
theorem execWnext_registers (s : State) (ms : List Mutator) :
    Ensures (fun t => t.wsel = s.wsel ∧ (t.cur = s.cur ∨ t.cur = s.cur + 1 ∧ Answered s t .ok 0)) (execWnext ms s) := by
  obtain ⟨-, e⟩ | ⟨-, e⟩ | ⟨m, -, -, -, ⟨-, e⟩ | ⟨-, e⟩⟩ := execWnext_cases s ms <;> rw [e]
  · exact ensures_next.2 ⟨rfl, .inl rfl⟩
  · exact ensures_fault _
  · exact ensures_next.2 ⟨rfl, .inr ⟨rfl, rfl⟩⟩
  · exact ensures_next.2 ⟨rfl, .inl rfl⟩

/-- `GETW j` leaves CUR as it was, and WSEL becomes `j` when `j` is a legal index (R203). -/
theorem execGetw_registers (s : State) (j : Int) :
    Ensures (fun t => t.cur = s.cur ∧ (t.wsel = s.wsel ∨ 0 ≤ j ∧ j ≤ 65535 ∧ (t.wsel.toNat : Int) = j))
      (execGetw j s) := by
  obtain ⟨-, e⟩ | ⟨h0, h1, e⟩ := execGetw_cases s j <;> rw [e]
  · exact ensures_next.2 ⟨rfl, .inl rfl⟩
  · refine ensures_next.2 ⟨rfl, .inr ⟨h0, h1, ?_⟩⟩
    simp only [State.respond_wsel, State.setWsel_wsel, BitVec.toNat_ofInt]
    omega

/-- Settles O15: a successful `WNEXT` raises CUR by one, `CINIT` clears it, and no other command writes it. -/
theorem cursorWrittenOnlyByWnextAndCinit : Obligations.CursorWrittenOnlyByWnextAndCinit := fun i s t h => by
  obtain ⟨ms, rfl⟩ | ⟨j, rfl⟩ | rfl | hr := exec_register_cases s i
  · obtain ⟨-, hcur | ⟨hcur, ha⟩⟩ := execWnext_registers s ms t h
    · exact .inl hcur
    · exact .inr (.inl ⟨hcur, ⟨ms, rfl⟩, ha⟩)
  · exact .inl (execGetw_registers s j t h).1
  · cases h
    exact .inr (.inr ⟨rfl, rfl⟩)
  · exact .inl (hr t h).1

/-- Settles O16: a `GETW` with a legal index loads WSEL, `CINIT` clears it, and no other command writes it. -/
theorem wordSelectWrittenOnlyByGetwAndCinit : Obligations.WordSelectWrittenOnlyByGetwAndCinit := fun i s t h => by
  obtain ⟨ms, rfl⟩ | ⟨j, rfl⟩ | rfl | hr := exec_register_cases s i
  · exact .inl (execWnext_registers s ms t h).1
  · obtain ⟨-, hwsel | hj⟩ := execGetw_registers s j t h
    · exact .inl hwsel
    · exact .inr (.inl ⟨j, rfl, hj⟩)
  · cases h
    exact .inr (.inr ⟨rfl, rfl⟩)
  · exact .inl (hr t h).2

end Sys2Proof.Machine
end

section
/-! PROOFS. The statement of 20_memory.md on `MemWrite` and `MemRead` (R30, R90): each in terms of its bytes, and the value read back. -/

namespace Sys2Proof.Machine

/-- Byte `j` of the little-endian bytes of `v` (R90). -/
theorem bytesLE_getD {n j : Nat} (hj : j < n) (v : Nat) : (bytesLE n v).getD j 0 = BitVec.ofNat 8 (v / 256 ^ j) := by
  induction n generalizing j v with
  | zero => omega
  | succ n ih =>
    cases j with
    | zero => simp [bytesLE]
    | succ j => rw [bytesLE, List.getD_cons_succ, ih (by omega), Nat.div_div_eq_div_mul, pow_succ']

/-- The bytes that `MemWrite` stores, and every other byte as it was (R30). -/
theorem State.byteAt_memWrite (s : State) (a n v y : Nat) :
    (s.memWrite a n v).byteAt y =
      if a ≤ y ∧ y < a + n then BitVec.ofNat 8 (v / 256 ^ (y - a)) else s.byteAt y := by
  rw [State.memWrite, State.byteAt_setBytes, bytesLE_length]
  split
  · exact bytesLE_getD (by omega) v
  · rfl

/-- `MemRead` answers the `n` low bytes of any value whose bytes lie at the address (R30, R90). -/
theorem State.memRead_eq_mod (s : State) {a n v : Nat}
    (h : ∀ j < n, (s.byteAt (a + j)).toNat = v / 256 ^ j % 256) : s.memRead a n = v % 256 ^ n := by
  induction n generalizing a v with
  | zero => rw [State.memRead, pow_zero, Nat.mod_one]
  | succ n ih =>
    have hlow : (s.byteAt a).toNat = v % 256 := by simpa using h 0 n.succ_pos
    have hrest : s.memRead (a + 1) n = v / 256 % 256 ^ n := ih fun j hj => by
      rw [Nat.add_assoc, Nat.add_comm 1 j, h (j + 1) (by omega), Nat.div_div_eq_div_mul, pow_succ']
    rw [State.memRead, hlow, hrest, pow_succ', Nat.mod_mul]

/-- Settles O26: each stored byte is read off the write, and the read recombines them by induction on the width. -/
theorem memReadAfterMemWrite : Obligations.MemReadAfterMemWrite := fun s a n v => by
  have hbyte : ∀ j < n, ((s.memWrite a n v).byteAt (a + j)).toNat = v / 256 ^ j % 256 := fun j hj => by
    rw [State.byteAt_memWrite, if_pos (by omega), Nat.add_sub_cancel_left, BitVec.toNat_ofNat]
  exact ⟨hbyte, s.sameOutside_setBytes le_rfl (by rw [bytesLE_length]), State.memRead_eq_mod _ hbyte⟩

end Sys2Proof.Machine
end

section
/-! PROOFS. The laws of the decoder (R57 to R63): each format accepts exactly the immediates it writes, each opcode is read as the opcode table has it, and a single word is refused exactly when R63 says so. -/

namespace Sys2Proof

open Sys2Proof.Machine

/-! ## The four operand formats (R58, R61) -/

theorem dpadName_dpadCode (d : Dpad) : dpadName (dpadCode d) = some d := by cases d <;> rfl

theorem dpadCode_of_dpadName {c : Nat} {d : Dpad} (h : dpadName c = some d) : dpadCode d = c := by
  unfold dpadName at h
  split at h <;> cases h <;> rfl

/-- Among the codes of four bits, 9 to 14 have no member (R172). -/
theorem dpadName_eq_none_iff {c : Nat} (hc : c < 16) : dpadName c = none ↔ 9 ≤ c ∧ c ≤ 14 := by
  interval_cases c <;> decide

theorem shiftRight_eq_zero_iff (imm : Imm) (k : Nat) : imm >>> k = 0 ↔ imm.toNat < 2 ^ k := by
  rw [← BitVec.toNat_inj, BitVec.toNat_ushiftRight, Nat.shiftRight_eq_div_pow]
  exact Nat.div_eq_zero_iff_lt (Nat.two_pow_pos k)

theorem formatS_ofInt (f : Int → Instr) {v : Int} (hv : fitsS v = true) :
    formatS f (BitVec.ofInt 24 v) = .ok (f v) := by
  have hrange : -8388608 ≤ v ∧ v ≤ 8388607 := of_decide_eq_true hv
  rw [formatS, BitVec.toInt_ofInt_eq_self (by decide) (by omega) (by omega)]

theorem formatB_ofBool (f : Bool → Instr) (b : Bool) : formatB f (BitVec.ofNat 24 b.toNat) = .ok (f b) := by
  cases b <;> rfl

theorem formatN_dpadCode (f : Dpad → Instr) (d : Dpad) : formatN f (BitVec.ofNat 24 (dpadCode d)) = .ok (f d) := by
  cases d <;> rfl

theorem formatZ_cases (i : Instr) (imm : Imm) :
    (imm = 0 ∧ formatZ i imm = .ok i) ∨ (imm.toNat ≠ 0 ∧ ∃ e, formatZ i imm = .error e) := by
  by_cases h : imm = 0
  · exact .inl ⟨h, if_pos h⟩
  · exact .inr ⟨fun h0 => h (BitVec.eq_of_toNat_eq h0), _, if_neg h⟩

theorem formatS_cases (f : Int → Instr) (imm : Imm) :
    ∃ v, fitsS v = true ∧ imm = BitVec.ofInt 24 v ∧ formatS f imm = .ok (f v) := by
  have hle := imm.le_toInt
  have hlt := imm.toInt_lt
  exact ⟨imm.toInt, decide_eq_true (by omega), imm.ofInt_toInt.symm, rfl⟩

theorem formatB_cases (f : Bool → Instr) (imm : Imm) :
    (imm.toNat < 2 ∧ ∃ b, imm = BitVec.ofNat 24 b.toNat ∧ formatB f imm = .ok (f b)) ∨
    (2 ≤ imm.toNat ∧ ∃ e, formatB f imm = .error e) := by
  by_cases h : imm.toNat < 2
  · have hb : imm = BitVec.ofNat 24 (imm.getLsbD 0).toNat := by
      apply BitVec.eq_of_toNat_eq
      rw [BitVec.toNat_ofNat, BitVec.getLsbD, Nat.testBit_zero]
      interval_cases imm.toNat <;> rfl
    exact .inl ⟨h, _, hb, if_pos ((shiftRight_eq_zero_iff imm 1).2 h)⟩
  · exact .inr ⟨by omega, _, if_neg (mt (shiftRight_eq_zero_iff imm 1).1 h)⟩

theorem formatN_cases (f : Dpad → Instr) (imm : Imm) :
    (imm.toNat < 16 ∧ ¬(9 ≤ imm.toNat ∧ imm.toNat ≤ 14) ∧
      ∃ d, imm = BitVec.ofNat 24 (dpadCode d) ∧ formatN f imm = .ok (f d)) ∨
    ((16 ≤ imm.toNat ∨ 9 ≤ imm.toNat ∧ imm.toNat ≤ 14) ∧ ∃ e, formatN f imm = .error e) := by
  by_cases h : imm.toNat < 16
  · cases hd : dpadName imm.toNat with
    | none =>
      refine .inr ⟨.inr ((dpadName_eq_none_iff h).1 hd), .dpadCode, ?_⟩
      rw [formatN, if_pos ((shiftRight_eq_zero_iff imm 4).2 h), Nat.mod_eq_of_lt h, hd]
    | some d =>
      have himm : imm = BitVec.ofNat 24 (dpadCode d) := by
        rw [dpadCode_of_dpadName hd, BitVec.ofNat_toNat, BitVec.setWidth_eq]
      refine .inl ⟨h, fun hc => ?_, d, himm, himm ▸ formatN_dpadCode f d⟩
      rw [(dpadName_eq_none_iff h).2 hc] at hd
      cases hd
  · exact .inr ⟨.inl (by omega), _, if_neg (mt (shiftRight_eq_zero_iff imm 4).1 h)⟩

/-! ## The opcode map (R59) -/

/-- `i` is well formed and its word has opcode `op` and immediate `imm`. -/
def SpelledBy (i : Instr) (op : Opcode) (imm : Imm) : Prop :=
  i.wellFormed = true ∧ opcode i = op ∧ immediate i = imm

/-- An opcode with a command of one word, in another format than `N` (R58, R59). -/
abbrev PlainOpcode (op : Nat) : Prop := op ≠ 0xC1 ∧ op ≠ 0x71 ∧ ¬reservedOp op

/-- What the opcode map may answer for `op` and `imm`: the row's format applied to the row's command. -/
inductive OpcodeRow (op : Opcode) (imm : Imm) : Except DecodeError Instr → Prop
  | zero (i : Instr)
      (hop : PlainOpcode op.toNat ∧ zeroFormat op.toNat ∧ ¬boolFormat op.toNat := by decide)
      (hi : SpelledBy i op 0 := by exact ⟨rfl, rfl, rfl⟩) :
      OpcodeRow op imm (formatZ i imm)
  | signed (f : Int → Instr)
      (hop : PlainOpcode op.toNat ∧ ¬zeroFormat op.toNat ∧ ¬boolFormat op.toNat := by decide)
      (hf : ∀ v, fitsS v = true → SpelledBy (f v) op (BitVec.ofInt 24 v) := by exact fun _ h => ⟨h, rfl, rfl⟩) :
      OpcodeRow op imm (formatS f imm)
  | bool (f : Bool → Instr)
      (hop : PlainOpcode op.toNat ∧ ¬zeroFormat op.toNat ∧ boolFormat op.toNat := by decide)
      (hf : ∀ b, SpelledBy (f b) op (BitVec.ofNat 24 b.toNat) := by exact fun _ => ⟨rfl, rfl, rfl⟩) :
      OpcodeRow op imm (formatB f imm)
  | dpad (hop : op = 0x71#8) : OpcodeRow op imm (formatN .setdp imm)
  | header (hop : op = 0xC1#8) : OpcodeRow op imm (.error .nestedGroup)
  | reserved (hop : reservedOp op.toNat) : OpcodeRow op imm (.error .reservedOpcode)

theorem decodeOp_row (op : Opcode) (imm : Imm) : OpcodeRow op imm (decodeOp op imm) := by
  unfold decodeOp
  split
  · exact .zero .getjLh
  · exact .zero .getjLv
  · exact .zero .getjRh
  · exact .zero .getjRv
  · exact .signed .setjLh
  · exact .signed .setjLv
  · exact .signed .setjRh
  · exact .signed .setjRv
  · exact .zero .gettZl
  · exact .zero .gettZr
  · exact .signed .settZl
  · exact .signed .settZr
  · exact .zero .getbL
  · exact .zero .getbR
  · exact .zero .getbZl
  · exact .zero .getbZr
  · exact .zero .getbA
  · exact .zero .getbB
  · exact .zero .getbY
  · exact .zero .getbX
  · exact .zero .getbHome
  · exact .zero .getbShot
  · exact .zero .getbLs
  · exact .zero .getbRs
  · exact .zero .getbMinus
  · exact .zero .getbPlus
  · exact .bool .setbL
  · exact .bool .setbR
  · exact .bool .setbZl
  · exact .bool .setbZr
  · exact .bool .setbA
  · exact .bool .setbB
  · exact .bool .setbY
  · exact .bool .setbX
  · exact .bool .setbHome
  · exact .bool .setbShot
  · exact .bool .setbLs
  · exact .bool .setbRs
  · exact .bool .setbMinus
  · exact .bool .setbPlus
  · exact .zero .getdp
  · exact .dpad rfl
  · exact .zero .ispad
  · exact .bool .setpad
  · exact .zero .enc
  · exact .zero .dec
  · exact .zero .cinit
  · exact .header rfl
  · exact .zero .finish
  · exact .signed .getw
  · exact .zero .ser
  · exact .zero .deser
  · refine .reserved ?_
    simp only [← BitVec.toNat_inj, BitVec.reduceToNat, imp_false] at *
    unfold reservedOp
    omega


/-- The decoder reads back every command of one word (R57 to R61). -/
theorem decodeOp_opcode_immediate {i : Instr} (hi : i.wellFormed = true) (hop : opcode i ≠ 0xC1#8) :
    decodeOp (opcode i) (immediate i) = .ok i := by
  cases i with
  | setjLh v | setjLv v | setjRh v | setjRv v | settZl v | settZr v | getw v => exact formatS_ofInt _ hi
  | setbL b | setbR b | setbZl b | setbZr b | setbA b | setbB b | setbY b | setbX b => exact formatB_ofBool _ b
  | setbHome b | setbShot b | setbLs b | setbRs b | setbMinus b | setbPlus b | setpad b => exact formatB_ofBool _ b
  | setdp d => exact formatN_dpadCode _ d
  | wnext ms => exact absurd rfl hop
  | _ => rfl

/-! ## Commands of one word -/

theorem opOf_toNat (w : Word) : (opOf w).toNat = opNat w := by
  rw [opOf, BitVec.extractLsb'_toNat, Nat.shiftRight_zero, opNat]

theorem immOf_toNat (w : Word) : (immOf w).toNat = immNat w := by
  have := w.isLt
  rw [immOf, BitVec.extractLsb'_toNat, Nat.shiftRight_eq_div_pow, immNat]
  omega

/-- R63 items 1 to 4 for an opcode that is not reserved and not of format `N`. -/
theorem illegalWord_iff {w : Word} (hop : PlainOpcode (opNat w)) :
    illegalWord w ↔ (zeroFormat (opNat w) ∧ immNat w ≠ 0) ∨ (boolFormat (opNat w) ∧ 2 ≤ immNat w) := by
  obtain ⟨-, hn, hr⟩ := hop
  rw [illegalWord, or_iff_right hr, ← or_assoc, or_iff_left fun h => hn h.1]

/-- R63 item 4. -/
theorem illegalWord_iff_of_dpad {w : Word} (hop : opNat w = 0x71) :
    illegalWord w ↔ 16 ≤ immNat w ∨ 9 ≤ immNat w ∧ immNat w ≤ 14 := by
  have hr : ¬reservedOp (opNat w) := by rw [hop]; decide
  have hz : ¬zeroFormat (opNat w) := by rw [hop]; decide
  have hb : ¬boolFormat (opNat w) := by rw [hop]; decide
  rw [illegalWord, or_iff_right hr, or_iff_right fun h => hz h.1, or_iff_right fun h => hb h.1, and_iff_right hop]

/-- Everything the decoder answers to one word: the command that the word spells, or an error, and that exactly to a
`WNEXT` header and to a word that is illegal by R63 items 1 to 4. -/
theorem decodeOne_cases (w : Word) :
    (∃ i, decodeOne w = .ok i ∧ SpelledBy i (opOf w) (immOf w) ∧ opNat w ≠ 0xC1 ∧ ¬illegalWord w) ∨
    (∃ e, decodeOne w = .error e ∧ (opNat w = 0xC1 ∨ illegalWord w)) := by
  have hrow := decodeOp_row (opOf w) (immOf w)
  unfold decodeOne
  generalize decodeOp (opOf w) (immOf w) = r at hrow
  cases hrow with
  | zero i hop hi =>
    rw [opOf_toNat] at hop
    obtain ⟨hplain, hz, hb⟩ := hop
    have hill : illegalWord w ↔ immNat w ≠ 0 := by
      rw [illegalWord_iff hplain, and_iff_right hz, or_iff_left fun h => hb h.1]
    rw [hill, ← immOf_toNat]
    obtain ⟨h0, h⟩ | ⟨hne, he⟩ := formatZ_cases i (immOf w)
    · exact .inl ⟨i, h, h0 ▸ hi, hplain.1, not_not.2 (congrArg BitVec.toNat h0)⟩
    · exact .inr (he.imp fun e h => ⟨h, .inr hne⟩)
  | signed f hop hf =>
    rw [opOf_toNat] at hop
    obtain ⟨hplain, hz, hb⟩ := hop
    have hlegal : ¬illegalWord w := by
      rw [illegalWord_iff hplain]
      exact not_or.2 ⟨fun h => hz h.1, fun h => hb h.1⟩
    obtain ⟨v, hv, himm, h⟩ := formatS_cases f (immOf w)
    exact .inl ⟨f v, h, himm ▸ hf v hv, hplain.1, hlegal⟩
  | bool f hop hf =>
    rw [opOf_toNat] at hop
    obtain ⟨hplain, hz, hb⟩ := hop
    have hill : illegalWord w ↔ 2 ≤ immNat w := by
      rw [illegalWord_iff hplain, and_iff_right hb, or_iff_right fun h => hz h.1]
    rw [hill, ← immOf_toNat]
    obtain ⟨hlt, b, himm, h⟩ | ⟨hge, he⟩ := formatB_cases f (immOf w)
    · exact .inl ⟨f b, h, himm ▸ hf b, hplain.1, by omega⟩
    · exact .inr (he.imp fun e h => ⟨h, .inr hge⟩)
  | dpad hop =>
    have hnat : opNat w = 0x71 := by rw [← opOf_toNat, hop]; rfl
    rw [illegalWord_iff_of_dpad hnat, hnat, ← immOf_toNat]
    obtain ⟨hlt, hcode, d, himm, h⟩ | ⟨hge, he⟩ := formatN_cases .setdp (immOf w)
    · exact .inl ⟨.setdp d, h, ⟨rfl, hop.symm, himm.symm⟩, by decide, by omega⟩
    · exact .inr (he.imp fun e h => ⟨h, .inr hge⟩)
  | header hop => exact .inr ⟨_, rfl, .inl (by rw [← opOf_toNat, hop]; rfl)⟩
  | reserved hop => exact .inr ⟨_, rfl, .inr (.inl (opOf_toNat w ▸ hop))⟩

end Sys2Proof
end

section
/-! PROOFS. The statements of 30_encoding.md on the encoding (R57 to R63): decoding and encoding are inverse to each other, and the decoder refuses exactly the illegal encodings. -/

namespace Sys2Proof

open Sys2Proof.Machine

/-! ## Words and groups -/

theorem encode_of_opcode_ne {i : Instr} (h : opcode i ≠ 0xC1#8) : encode i = [firstWord i] := by
  cases i with
  | wnext ms => exact absurd rfl h
  | _ => rfl

theorem exists_wnext_of_opcode_eq {i : Instr} (h : opcode i = 0xC1#8) : ∃ ms, i = .wnext ms := by
  cases i with
  | wnext ms => exact ⟨ms, rfl⟩
  | _ => simp [opcode] at h

theorem encode_eq_cons (i : Instr) : ∃ ws, encode i = firstWord i :: ws := by
  cases i <;> exact ⟨_, rfl⟩

@[simp] theorem opOf_firstWord (i : Instr) : opOf (firstWord i) = opcode i := opOf_mkWord _ _

@[simp] theorem immOf_firstWord (i : Instr) : immOf (firstWord i) = immediate i := immOf_mkWord _ _

theorem opNat_eq_iff (w : Word) : opNat w = 0xC1 ↔ opOf w = 0xC1#8 := by
  rw [← opOf_toNat, ← BitVec.toNat_inj]
  rfl

/-- A word decodes to a command of one word exactly when the command is well formed and the word is its first word. -/
theorem decodeOne_eq_ok_iff {w : Word} {i : Instr} :
    decodeOne w = .ok i ↔ i.wellFormed = true ∧ opcode i ≠ 0xC1#8 ∧ firstWord i = w := by
  constructor
  · intro h
    obtain ⟨j, hj, ⟨hwf, hop, himm⟩, hne, -⟩ | ⟨e, he, -⟩ := decodeOne_cases w
    · obtain rfl : j = i := Except.ok.inj (hj.symm.trans h)
      rw [Ne, opNat_eq_iff, ← hop] at hne
      exact ⟨hwf, hne, by rw [firstWord, hop, himm, mkWord_opOf_immOf]⟩
    · cases he.symm.trans h
  · rintro ⟨hwf, hne, rfl⟩
    rw [decodeOne, opOf_firstWord, immOf_firstWord, decodeOp_opcode_immediate hwf hne]

theorem decodeOne_error_iff (w : Word) : (∃ e, decodeOne w = .error e) ↔ opNat w = 0xC1 ∨ illegalWord w := by
  obtain ⟨i, hi, -, hne, hlegal⟩ | ⟨e, he, hill⟩ := decodeOne_cases w
  · rw [hi]
    exact iff_of_false nofun (not_or.2 ⟨hne, hlegal⟩)
  · exact iff_of_true ⟨e, he⟩ hill

/-! ## Members of a group (R60, R62) -/

theorem toMutator_ofMutator (m : Mutator) : toMutator (ofMutator m) = some m := by
  cases m with
  | setj ax v => cases ax <;> rfl
  | sett tr p => cases tr <;> rfl
  | setb bt b => cases bt <;> rfl
  | setdp d => rfl
  | setpad b => rfl

theorem toMutator_eq_some_iff {i : Instr} {m : Mutator} : toMutator i = some m ↔ ofMutator m = i := by
  constructor
  · intro h
    cases i <;> cases h <;> rfl
  · rintro rfl
    exact toMutator_ofMutator m

/-- The commands with a mutator opcode are the mutators (R60). -/
theorem toMutator_eq_none_iff (i : Instr) : toMutator i = none ↔ ¬mutatorOp (opcode i).toNat := by
  cases i <;> simp [toMutator, opcode]

theorem ofMutator_wellFormed (m : Mutator) : (ofMutator m).wellFormed = m.wellFormed := by
  cases m with
  | setj ax v => cases ax <;> rfl
  | sett tr p => cases tr <;> rfl
  | setb bt b => cases bt <;> rfl
  | setdp d => rfl
  | setpad b => rfl

theorem opcode_ofMutator_ne (m : Mutator) : opcode (ofMutator m) ≠ 0xC1#8 := fun h => by
  obtain ⟨ms, hms⟩ := exists_wnext_of_opcode_eq h
  cases toMutator_eq_some_iff.2 hms

theorem decodeMember_of_decodeOne {w : Word} {m : Mutator} (h : decodeOne w = .ok (ofMutator m)) :
    decodeMember w = .ok m := by
  simp only [decodeMember, h, toMutator_ofMutator]

/-- Everything the decoder answers to a member word: the mutator that the word spells, or an error, and that exactly to
a word that is no mutator or illegal (R62 condition (c)). -/
theorem decodeMember_cases (w : Word) :
    (∃ m, decodeMember w = .ok m ∧ decodeOne w = .ok (ofMutator m) ∧ ¬(¬mutatorOp (opNat w) ∨ illegalWord w)) ∨
    (∃ e, decodeMember w = .error e ∧ (¬mutatorOp (opNat w) ∨ illegalWord w)) := by
  obtain ⟨i, hi, ⟨-, hop, -⟩, -, hlegal⟩ | ⟨e, he, hill⟩ := decodeOne_cases w
  · have hnone := toMutator_eq_none_iff i
    rw [hop, opOf_toNat] at hnone
    cases hm : toMutator i with
    | none => exact .inr ⟨.notMutator, by simp only [decodeMember, hi, hm], .inl (hnone.1 hm)⟩
    | some m =>
      obtain rfl := toMutator_eq_some_iff.1 hm
      have hmut : mutatorOp (opNat w) := by
        by_contra h
        cases hm.symm.trans (hnone.2 h)
      exact .inl ⟨m, decodeMember_of_decodeOne hi, hi, not_or.2 ⟨not_not.2 hmut, hlegal⟩⟩
  · refine .inr ⟨e, by simp only [decodeMember, he], ?_⟩
    exact hill.imp_left fun h => by rw [h]; decide

theorem decodeMember_eq_ok_iff {w : Word} {m : Mutator} :
    decodeMember w = .ok m ↔ m.wellFormed = true ∧ firstWord (ofMutator m) = w := by
  have hone : decodeMember w = .ok m ↔ decodeOne w = .ok (ofMutator m) := by
    refine ⟨fun h => ?_, decodeMember_of_decodeOne⟩
    obtain ⟨m', hm, hw, -⟩ | ⟨e, he, -⟩ := decodeMember_cases w
    · cases hm.symm.trans h
      exact hw
    · cases he.symm.trans h
  rw [hone, decodeOne_eq_ok_iff, ofMutator_wellFormed, and_iff_right (opcode_ofMutator_ne m)]

theorem decodeMember_error_iff (w : Word) :
    (∃ e, decodeMember w = .error e) ↔ ¬mutatorOp (opNat w) ∨ illegalWord w := by
  obtain ⟨m, hm, -, hlegal⟩ | ⟨e, he, hill⟩ := decodeMember_cases w
  · rw [hm]
    exact iff_of_false nofun hlegal
  · exact iff_of_true ⟨e, he⟩ hill

/-- The words of the members of a group (R62). -/
def memberWords (ms : List Mutator) : List Word := ms.map fun m => firstWord (ofMutator m)

theorem encode_wnext (ms : List Mutator) : encode (.wnext ms) = firstWord (.wnext ms) :: memberWords ms := rfl

@[simp] theorem memberWords_length (ms : List Mutator) : (memberWords ms).length = ms.length := List.length_map _

theorem decodeMembers_eq_ok_iff {ws : List Word} {ms : List Mutator} :
    decodeMembers ws = .ok ms ↔ ms.all Mutator.wellFormed = true ∧ memberWords ms = ws := by
  induction ws generalizing ms with
  | nil => cases ms <;> simp [decodeMembers, memberWords]
  | cons w ws ih =>
    have hcons : decodeMembers (w :: ws) = .ok ms ↔
        ∃ m ms', ms = m :: ms' ∧ decodeMember w = .ok m ∧ decodeMembers ws = .ok ms' := by
      rw [decodeMembers]
      cases decodeMember w with
      | error e => simp
      | ok m => cases decodeMembers ws <;> simp [eq_comm]
    rw [hcons]
    cases ms with
    | nil => simp [memberWords]
    | cons m ms => simp [ih, decodeMember_eq_ok_iff, memberWords, and_assoc, and_left_comm]

theorem decodeMembers_error_iff (ws : List Word) :
    (∃ e, decodeMembers ws = .error e) ↔ ∃ m ∈ ws, ¬mutatorOp (opNat m) ∨ illegalWord m := by
  simp only [← decodeMember_error_iff]
  induction ws with
  | nil => simp [decodeMembers]
  | cons w ws ih =>
    rw [List.exists_mem_cons_iff, ← ih, decodeMembers]
    cases decodeMember w with
    | error e => simp
    | ok m => cases decodeMembers ws <;> simp

/-! ## One command -/

theorem countFits_iff (w : Word) : immOf w >>> 16 = 0 ↔ immNat w < 65536 := by
  rw [shiftRight_eq_zero_iff, immOf_toNat, show 2 ^ 16 = 65536 from rfl]

theorem extraWords_of_header {w : Word} (hop : opOf w = 0xC1#8) (hn : immNat w < 65536) : extraWords w = immNat w := by
  rw [extraWords, if_pos ⟨hop, (countFits_iff w).2 hn⟩, immOf_toNat]

theorem decodeCmd_snd (w : Word) (ws : List Word) : (decodeCmd w ws).2 = ws.drop (extraWords w) := rfl

theorem decodeCmd_of_not_header {w : Word} (hop : opOf w ≠ 0xC1#8) (ws : List Word) :
    decodeCmd w ws = (decodeOne w, ws) := by
  rw [decodeCmd, if_neg hop, extraWords, if_neg fun h => hop h.1, List.drop_zero]

/-- Everything the decoder answers to a `WNEXT` header (R62). -/
theorem decodeCmd_header_cases {w : Word} (hop : opOf w = 0xC1#8) (ws : List Word) :
    (65536 ≤ immNat w ∧ decodeCmd w ws = (.error .countHighBits, ws)) ∨
    (immNat w < 65536 ∧ ws.length < immNat w ∧ decodeCmd w ws = (.error .truncatedGroup, [])) ∨
    (immNat w < 65536 ∧ immNat w ≤ ws.length ∧
      decodeCmd w ws = ((decodeMembers (ws.take (immNat w))).map Instr.wnext, ws.drop (immNat w))) := by
  have hfits := countFits_iff w
  by_cases hn : immNat w < 65536
  · have hx := extraWords_of_header hop hn
    rw [decodeCmd, if_pos hop, if_pos (hfits.2 hn), hx]
    by_cases hl : ws.length < immNat w
    · exact .inr (.inl ⟨hn, hl, by rw [if_pos hl, List.drop_of_length_le hl.le]⟩)
    · refine .inr (.inr ⟨hn, by omega, ?_⟩)
      rw [if_neg hl]
      cases decodeMembers (ws.take (immNat w)) <;> rfl
  · refine .inl ⟨by omega, ?_⟩
    rw [decodeCmd, if_pos hop, if_neg (mt hfits.1 hn), extraWords, if_neg fun h => hn (hfits.1 h.2), List.drop_zero]

theorem firstWord_wnext_eq_iff {w : Word} {ms : List Mutator} (hl : ms.length ≤ 65535) :
    firstWord (.wnext ms) = w ↔ opOf w = 0xC1#8 ∧ immNat w = ms.length := by
  have hlt : ms.length < 2 ^ 24 := by omega
  constructor
  · rintro rfl
    refine ⟨opOf_firstWord _, ?_⟩
    rw [← immOf_toNat, immOf_firstWord, immediate, BitVec.toNat_ofNat, Nat.mod_eq_of_lt hlt]
  · rintro ⟨hop, himm⟩
    rw [firstWord, immediate, opcode, ← hop, ← himm, ← immOf_toNat, BitVec.ofNat_toNat, BitVec.setWidth_eq,
      mkWord_opOf_immOf]

theorem wellFormed_wnext_iff (ms : List Mutator) :
    (Instr.wnext ms).wellFormed = true ↔ ms.length ≤ 65535 ∧ ms.all Mutator.wellFormed = true := by
  rw [Instr.wellFormed, Bool.and_eq_true, decide_eq_true_eq]

/-- A command that the decoder accepts is well formed, and its encoding is the words taken. -/
theorem encode_of_decodeCmd {w : Word} {ws rest : List Word} {i : Instr} (h : decodeCmd w ws = (.ok i, rest)) :
    i.wellFormed = true ∧ encode i ++ rest = w :: ws := by
  by_cases hop : opOf w = 0xC1#8
  · obtain ⟨-, he⟩ | ⟨-, -, he⟩ | ⟨hn, hl, he⟩ := decodeCmd_header_cases hop ws
    · cases he.symm.trans h
    · cases he.symm.trans h
    · obtain ⟨hms, rfl⟩ := Prod.mk.inj (he.symm.trans h)
      cases hm : decodeMembers (ws.take (immNat w)) with
      | error e => rw [hm] at hms; cases hms
      | ok ms =>
        rw [hm] at hms
        cases hms
        obtain ⟨hwf, hwords⟩ := decodeMembers_eq_ok_iff.1 hm
        have hlen : ms.length = immNat w := by
          rw [← memberWords_length, hwords, List.length_take, Nat.min_eq_left hl]
        have hle : ms.length ≤ 65535 := by omega
        refine ⟨(wellFormed_wnext_iff ms).2 ⟨hle, hwf⟩, ?_⟩
        rw [encode_wnext, (firstWord_wnext_eq_iff hle).2 ⟨hop, hlen.symm⟩, hwords, List.cons_append,
          List.take_append_drop]
  · rw [decodeCmd_of_not_header hop] at h
    obtain ⟨hone, rfl⟩ := Prod.mk.inj h
    obtain ⟨hwf, hne, rfl⟩ := decodeOne_eq_ok_iff.1 hone
    exact ⟨hwf, by rw [encode_of_opcode_ne hne, List.singleton_append]⟩

/-- The encoding of a well-formed command, with any words after it, decodes to the command and those words. -/
theorem decodeCmd_of_encode {w : Word} {ws rest : List Word} {i : Instr} (hi : i.wellFormed = true)
    (h : encode i ++ rest = w :: ws) : decodeCmd w ws = (.ok i, rest) := by
  by_cases hop : opcode i = 0xC1#8
  · obtain ⟨ms, rfl⟩ := exists_wnext_of_opcode_eq hop
    obtain ⟨hl, hwf⟩ := (wellFormed_wnext_iff ms).1 hi
    obtain ⟨hw, rfl⟩ := List.cons.inj h
    obtain ⟨hopw, himm⟩ := (firstWord_wnext_eq_iff hl).1 hw
    have hlen : (memberWords ms).length = immNat w := (memberWords_length ms).trans himm.symm
    obtain ⟨hn, -⟩ | ⟨-, hn, -⟩ | ⟨-, -, he⟩ := decodeCmd_header_cases hopw (memberWords ms ++ rest)
    · omega
    · rw [List.length_append] at hn
      omega
    · rw [List.take_left' hlen, List.drop_left' hlen, decodeMembers_eq_ok_iff.2 ⟨hwf, rfl⟩] at he
      exact he
  · rw [encode_of_opcode_ne hop, List.singleton_append] at h
    obtain ⟨rfl, rfl⟩ := List.cons.inj h
    rw [decodeCmd_of_not_header (by rwa [opOf_firstWord]), decodeOne_eq_ok_iff.2 ⟨hi, hop, rfl⟩]

/-- Settles O6: the encoding is not empty, and the decoder reads it back by the format of each command. -/
theorem decodeEncodeRoundTrip : Obligations.DecodeEncodeRoundTrip := fun i rest hi => by
  obtain ⟨ws, hws⟩ := encode_eq_cons i
  have h : encode i ++ rest = firstWord i :: (ws ++ rest) := by rw [hws, List.cons_append]
  exact ⟨_, _, h, decodeCmd_of_encode hi h⟩

/-- Settles O7: each format fixes every bit of the immediate, so the words taken are those of the command's encoding. -/
theorem encodeDecodeRoundTrip : Obligations.EncodeDecodeRoundTrip := fun _ _ _ _ h => encode_of_decodeCmd h

/-! ## Illegal encodings (R63) -/

theorem illegalWord_not_header {w : Word} (h : opNat w = 0xC1) : ¬illegalWord w := by
  unfold illegalWord
  omega

/-- Settles O3: a word of another opcode is refused by its row of the opcode map, and a `WNEXT` header by its count, by
the number of words after it, or by one of its members. -/
theorem decoderRefusesExactlyIllegal : Obligations.DecoderRefusesExactlyIllegal := fun w ws => by
  by_cases hop : opNat w = 0xC1
  · rw [illegalEncoding, or_iff_right (illegalWord_not_header hop), illegalGroup, and_iff_right hop,
      ← decodeMembers_error_iff]
    obtain ⟨hn, he⟩ | ⟨hn, hl, he⟩ | ⟨hn, hl, he⟩ := decodeCmd_header_cases ((opNat_eq_iff w).1 hop) ws <;> rw [he]
    · exact iff_of_true ⟨_, rfl⟩ (.inl hn)
    · exact iff_of_true ⟨_, rfl⟩ (.inr (.inl hl))
    · rw [or_iff_right (by omega), or_iff_right (by omega)]
      cases decodeMembers (ws.take (immNat w)) <;> simp [Except.map]
  · have hgroup : ¬illegalGroup w ws := fun h => hop h.1
    rw [decodeCmd_of_not_header (mt (opNat_eq_iff w).2 hop), decodeOne_error_iff, or_iff_right hop, illegalEncoding,
      or_iff_left hgroup]

/-- Settles O5: each word is evaluated. -/
theorem decodeSampleWords : Obligations.DecodeSampleWords := by
  unfold Obligations.DecodeSampleWords
  decide

end Sys2Proof
end

section
/-! PROOFS. The statements of 30_encoding.md on taking a command (R57, R62) and on its response (R64). -/

namespace Sys2Proof.Machine

/-! ## The command a step takes -/

/-- Settles O1: the step takes the words that the decoder takes, and runs what it answers. -/
theorem stepRunsDecodedCommand : Obligations.StepRunsDecodedCommand := fun s w ws rest i hc hd => by
  simp only [step, takeCommand, hc, hd]

/-- What a command decodes to does not depend on the words after it. -/
theorem decodeCmd_append {w : Word} {ws rest : List Word} {i : Instr} (h : decodeCmd w ws = (.ok i, rest))
    (more : List Word) : decodeCmd w (ws ++ more) = (.ok i, rest ++ more) := by
  obtain ⟨hwf, hwords⟩ := encode_of_decodeCmd h
  exact decodeCmd_of_encode hwf (by rw [← List.append_assoc, hwords, List.cons_append])

/-- An instruction of 32 bits is one word, and words of zeros where its count asks for members (log entry 1). -/
theorem tableWords_32 (w : Nat) :
    ∃ c, tableWords 32 w = c :: List.replicate (extraWords c) 0 := ⟨_, rfl⟩

/-- The decoder takes every word of an instruction of 32 bits. -/
theorem decodeCmd_of_decodeTableWord {w : Nat} {i : Instr} (h : decodeTableWord 32 w = some i) :
    ∃ c cs, tableWords 32 w = c :: cs ∧ decodeCmd c cs = (.ok i, []) := by
  obtain ⟨c, hc⟩ := tableWords_32 w
  refine ⟨c, _, hc, Prod.ext ?_ ?_⟩
  · simp only [decodeTableWord, hc] at h
    split at h
    · rename_i j hj
      cases h
      exact hj
    · cases h
  · rw [decodeCmd_snd, List.drop_replicate, Nat.sub_self, List.replicate_zero]

/-- Settles O8: the decoder takes exactly the words that were placed, whatever the host's list holds after them. -/
theorem placedInstructionRunsNext : Obligations.PlacedInstructionRunsNext := fun s w i h => by
  obtain ⟨c, cs, hw, hd⟩ := decodeCmd_of_decodeTableWord h
  have hcmds : (s.withFetchWord 32 w).cmds = c :: (cs ++ s.cmds) := by
    rw [State.withFetchWord, State.setCmds_cmds, hw, List.cons_append]
  rw [stepRunsDecodedCommand _ _ _ _ _ hcmds (decodeCmd_append hd s.cmds)]
  rfl

/-! ## The response of a command -/

/-- Exactly one response was given, and its value is within the bounds of R64 and R89. -/
def AnswersOnce (s t : State) : Prop := ∃ st v, Answered s t st v ∧ Bounded st v

variable {s : State} {r : Result}

theorem AnswersOnce.zero {t : State} (st : Status) (h : Answered s t st 0) : AnswersOnce s t := ⟨st, 0, h, .error st⟩

theorem OnlyAnswers.answersOnce (h : OnlyAnswers s r) : Ensures (AnswersOnce s) r := by
  obtain ⟨st, v, -, hb, rfl | rfl⟩ := h
  · exact ensures_next.2 ⟨st, v, rfl, hb⟩
  · exact ensures_next.2 ⟨st, v, rfl, hb⟩

theorem StoresInTarget.answersOnce (h : StoresInTarget s r) : Ensures (AnswersOnce s) r := by
  obtain ⟨x, bs, -, -, rfl⟩ := h
  exact ensures_next.2 (.zero .ok rfl)

variable (s)

theorem sinkWrite_answersOnce (bs : List Byte) : Ensures (AnswersOnce s) (sinkWrite bs s) :=
  sinkWrite_ensures fun _ => .zero .ok rfl

theorem execDec_answersOnce : Ensures (AnswersOnce s) (execDec s) := by
  obtain ⟨-, e⟩ | ⟨sr, -, -, e⟩ | ⟨sr, -, -, e⟩ := execDec_cases s <;> rw [e]
  · exact ensures_refused _
  · exact ensures_next.2 (.zero .formatError rfl)
  · exact ensures_next.2 (.zero .ok rfl)

theorem execDeser_answersOnce : Ensures (AnswersOnce s) (execDeser s) := by
  obtain ⟨-, e⟩ | ⟨sr, n, -, -, -, e⟩ | ⟨sr, -, -, e⟩ := execDeser_cases s <;> rw [e]
  · exact ensures_refused _
  · exact ensures_next.2 (.zero .formatError rfl)
  · exact ensures_next.2 (.zero .ok rfl)

theorem execWnext_answersOnce (ms : List Mutator) : Ensures (AnswersOnce s) (execWnext ms s) := by
  obtain ⟨-, e⟩ | ⟨-, e⟩ | ⟨m, -, -, -, ⟨-, e⟩ | ⟨-, e⟩⟩ := execWnext_cases s ms <;> rw [e]
  · exact ensures_next.2 (.zero .capacityError rfl)
  · exact ensures_fault _
  · exact ensures_next.2 (.zero .ok rfl)
  · exact ensures_next.2 (.zero .rangeError rfl)

theorem execGetw_answersOnce (i : Int) : Ensures (AnswersOnce s) (execGetw i s) := by
  obtain ⟨-, e⟩ | ⟨-, -, e⟩ := execGetw_cases s i <;> rw [e]
  · exact ensures_next.2 (.zero .indexError rfl)
  · exact ensures_next.2 (.zero .ok rfl)

theorem exec_codec_answersOnce (i : Instr) (hi : isCodec i = true) : Ensures (AnswersOnce s) (exec i s) := by
  obtain h | h | rfl | rfl := exec_codec_cases s i hi
  · exact h.answersOnce
  · exact h.answersOnce
  · exact sinkWrite_answersOnce s _
  · exact execDec_answersOnce s

theorem exec_answersOnce (i : Instr) : Ensures (AnswersOnce s) (exec i s) := by
  cases i with
  | cinit => exact ensures_next.2 (.zero .ok rfl)
  | wnext ms => exact execWnext_answersOnce s ms
  | finish => exact ensures_next.2 (.zero .ok rfl)
  | getw j => exact execGetw_answersOnce s j
  | ser => exact sinkWrite_answersOnce s _
  | deser => exact execDeser_answersOnce s
  | _ => exact exec_codec_answersOnce s _ rfl

theorem step_answersOnce (h : s.cmds ≠ []) : Ensures (AnswersOnce s) (step s) := by
  obtain ⟨hnil, -⟩ | ⟨w, ws, i, rest, -, -, e⟩ | ⟨w, ws, err, rest, -, -, e⟩ := step_cases s
  · exact absurd hnil h
  · rw [e]
    exact exec_answersOnce (s.setCmds rest) i
  · rw [e]
    exact ensures_next.2 (.zero .illegalCommand rfl)

/-- Settles O12: every way a command can end adds one response, and only a getter's value is not 0. -/
theorem oneResponsePerCommand : Obligations.OneResponsePerCommand := fun s t hc h => by
  obtain ⟨st, v, ha, hv, hle, hge⟩ := step_answersOnce s hc t h
  exact ⟨⟨st, v⟩, ha, hv, hle, hge⟩

/-- The packed response is the status above the value's 32 bits (R64). -/
theorem Response.pack_toNat (r : Response) :
    r.pack.toNat = (statusCode r.status).toNat * 2 ^ 32 + (BitVec.ofInt 32 r.value).toNat := by
  have hv := (BitVec.ofInt 32 r.value).isLt
  rw [Response.pack, BitVec.toNat_append, ← Nat.shiftLeft_add_eq_or_of_lt hv, Nat.shiftLeft_eq, BitVec.toNat_append,
    BitVec.toNat_ofNat, Nat.zero_mod, Nat.zero_shiftLeft, Nat.zero_or]

/-- Settles O13: the value's bits end below the status, and nothing stands above it. -/
theorem responsePacking : Obligations.ResponsePacking := fun r hlo hhi => by
  have hpack := r.pack_toNat
  have hv := (BitVec.ofInt 32 r.value).isLt
  have hstatus : r.pack.toNat / 2 ^ 32 = (statusCode r.status).toNat := by omega
  have hvalue : r.pack.extractLsb' 0 32 = BitVec.ofInt 32 r.value := by
    apply BitVec.eq_of_toNat_eq
    rw [BitVec.extractLsb'_toNat, Nat.shiftRight_zero]
    omega
  refine ⟨?_, hstatus, ?_, hstatus.trans ?_⟩
  · rw [hvalue, BitVec.toInt_ofInt_eq_self (by decide) (by omega) (by omega)]
  · cases r.status <;> decide
  · cases r.status <;> rfl

end Sys2Proof.Machine
end

section
/-! PROOFS. The statements of 30_encoding.md on the field getters of a padding record (R54, U1). -/

namespace Sys2Proof.Machine

/-! ## The getters by family -/

theorem exec_joystick_getter {i : Instr} (hi : i ∈ ([.getjLh, .getjLv, .getjRh, .getjRv] : List Instr)) :
    ∃ ax, exec i = joyGet ax := by
  simp only [List.mem_cons, List.not_mem_nil, or_false] at hi
  obtain rfl | rfl | rfl | rfl := hi
  · exact ⟨.lh, rfl⟩
  · exact ⟨.lv, rfl⟩
  · exact ⟨.rh, rfl⟩
  · exact ⟨.rv, rfl⟩

theorem exec_trigger_getter {i : Instr} (hi : i ∈ ([.gettZl, .gettZr] : List Instr)) : ∃ tr, exec i = trigGet tr := by
  simp only [List.mem_cons, List.not_mem_nil, or_false] at hi
  obtain rfl | rfl := hi
  · exact ⟨.zl, rfl⟩
  · exact ⟨.zr, rfl⟩

/-- The fourteen commands `GETB.*` (R132 to R145). -/
def buttonGetters : List Instr :=
  [.getbL, .getbR, .getbZl, .getbZr, .getbA, .getbB, .getbY, .getbX, .getbHome, .getbShot, .getbLs, .getbRs, .getbMinus,
    .getbPlus]

theorem exec_button_getter {i : Instr} (hi : i ∈ buttonGetters) : ∃ bt, exec i = btnGet bt := by
  simp only [buttonGetters, List.mem_cons, List.not_mem_nil, or_false] at hi
  obtain rfl | rfl | rfl | rfl | rfl | rfl | rfl | rfl | rfl | rfl | rfl | rfl | rfl | rfl := hi
  · exact ⟨.l, rfl⟩
  · exact ⟨.r, rfl⟩
  · exact ⟨.zl, rfl⟩
  · exact ⟨.zr, rfl⟩
  · exact ⟨.a, rfl⟩
  · exact ⟨.b, rfl⟩
  · exact ⟨.y, rfl⟩
  · exact ⟨.x, rfl⟩
  · exact ⟨.home, rfl⟩
  · exact ⟨.shot, rfl⟩
  · exact ⟨.ls, rfl⟩
  · exact ⟨.rs, rfl⟩
  · exact ⟨.minus, rfl⟩
  · exact ⟨.plus, rfl⟩

theorem buttonOffset_lt (bt : Button) : buttonOffset bt < 16 := by cases bt <;> decide

theorem triggerOffset_lt (tr : Trigger) : triggerOffset tr < 16 := by cases tr <;> decide

theorem axisOffset_succ_lt (ax : Axis) : axisOffset ax + 1 < 16 := by cases ax <;> decide

/-! ## What a getter sees -/

variable {s : State} {t : Nat}

/-- A getter answers a free value exactly under `PADDED_READ = ANY` on a padding record (U1). -/
theorem State.readsFree_iff : s.readsFree t = true ↔
    s.params.paddedRead = .any ∧ ∀ k, k < 16 → s.byteAt (byteAddr t k) = 0xFF#8 := by
  rw [State.readsFree, Bool.and_eq_true, decide_eq_true_eq, State.isPadding_iff]
  rfl

theorem State.readsFree_eq_false (h : s.params.paddedRead = .algorithmic) : s.readsFree t = false := by
  rw [State.readsFree, h]
  rfl

theorem State.fieldByte_of_free (h : s.readsFree t = true) (k : Nat) : s.fieldByte t k = Config.freeByte s.draws :=
  if_pos h

theorem State.fieldHalf_of_free (h : s.readsFree t = true) (k : Nat) :
    s.fieldHalf t k = (Config.freeHalf s.draws).toNat := if_pos h

theorem State.afterFieldRead_of_free (h : s.readsFree t = true) : s.afterFieldRead t = s.draw := if_pos h

theorem State.fieldByte_of_not_free (h : s.readsFree t = false) (k : Nat) : s.fieldByte t k = s.ld8 t k :=
  if_neg (by rw [h]; decide)

theorem State.fieldHalf_of_not_free (h : s.readsFree t = false) (k : Nat) : s.fieldHalf t k = s.ld16le t k :=
  if_neg (by rw [h]; decide)

theorem State.afterFieldRead_of_not_free (h : s.readsFree t = false) : s.afterFieldRead t = s :=
  if_neg (by rw [h]; decide)

/-! ## Free reads -/

theorem joyGet_of_free (h : s.readsFree s.target = true) (ax : Axis) :
    ∃ v : Int, -2048 ≤ v ∧ v ≤ 63487 ∧ joyGet ax s = .next (s.draw.respond .ok v) := by
  have hv := (Config.freeHalf s.draws).isLt
  refine ⟨(Config.freeHalf s.draws).toNat - 2048, by omega, by omega, ?_⟩
  rw [joyGet, State.fieldHalf_of_free h, State.afterFieldRead_of_free h]
  rfl

theorem trigGet_of_free (h : s.readsFree s.target = true) (tr : Trigger) :
    ∃ v : Int, 0 ≤ v ∧ v ≤ 255 ∧ trigGet tr s = .next (s.draw.respond .ok v) := by
  have hv := (Config.freeByte s.draws).isLt
  refine ⟨(Config.freeByte s.draws).toNat, by omega, by omega, ?_⟩
  rw [trigGet, State.fieldByte_of_free h, State.afterFieldRead_of_free h]
  rfl

theorem btnGet_of_free (h : s.readsFree s.target = true) (bt : Button) :
    btnGet bt s = .next (s.draw.respond .ok 0) ∨ btnGet bt s = .next (s.draw.respond .ok 1) := by
  rw [btnGet, State.afterFieldRead_of_free h]
  cases testMask (s.fieldByte s.target (buttonOffset bt)) (buttonMask bt)
  · exact .inl rfl
  · exact .inr rfl

theorem execGetdp_of_free (h : s.readsFree s.target = true) :
    execGetdp s = .next (s.draw.respond .formatError 0) ∨
      ∃ d : Dpad, execGetdp s = .next (s.draw.respond .ok (dpadCode d)) := by
  rw [execGetdp, State.afterFieldRead_of_free h]
  cases dpadName (lowNibble (s.fieldByte s.target offDpad)) with
  | none => exact .inl rfl
  | some d => exact .inr ⟨d, rfl⟩

/-- Settles O40: a free read draws once and answers what the getter's algorithm makes of any bits. -/
theorem paddedReadAnyIsFree : Obligations.PaddedReadAnyIsFree := by
  refine ⟨fun _ _ => State.readsFree_iff, fun s hany hpad => ?_⟩
  have h : s.readsFree s.target = true := State.readsFree_iff.2 ⟨hany, hpad⟩
  refine ⟨fun i hi => ?_, fun i hi => ?_, fun i hi => ?_, execGetdp_of_free h⟩
  · obtain ⟨ax, e⟩ := exec_joystick_getter hi
    exact e ▸ joyGet_of_free h ax
  · obtain ⟨tr, e⟩ := exec_trigger_getter hi
    exact e ▸ trigGet_of_free h tr
  · obtain ⟨bt, e⟩ := exec_button_getter hi
    exact e ▸ btnGet_of_free h bt

/-! ## The getters' algorithms on a padding record -/

theorem joyGet_of_padding (hf : s.readsFree s.target = false) (hp : s.isPadding s.target = true) (ax : Axis) :
    joyGet ax s = .next (s.respond .ok 63487) := by
  have hk := axisOffset_succ_lt ax
  have hb := s.isPadding_iff s.target |>.1 hp
  rw [joyGet, State.fieldHalf_of_not_free hf, State.afterFieldRead_of_not_free hf, State.ld16le_eq, hb _ (by omega),
    hb _ hk]
  rfl

theorem trigGet_of_padding (hf : s.readsFree s.target = false) (hp : s.isPadding s.target = true) (tr : Trigger) :
    trigGet tr s = .next (s.respond .ok 255) := by
  rw [trigGet, State.fieldByte_of_not_free hf, State.afterFieldRead_of_not_free hf,
    (s.isPadding_iff _).1 hp _ (triggerOffset_lt tr)]
  rfl

theorem btnGet_of_padding (hf : s.readsFree s.target = false) (hp : s.isPadding s.target = true) (bt : Button) :
    btnGet bt s = .next (s.respond .ok 1) := by
  have hmask : testMask pad (buttonMask bt) = true := by cases bt <;> decide
  rw [btnGet, State.fieldByte_of_not_free hf, State.afterFieldRead_of_not_free hf,
    (s.isPadding_iff _).1 hp _ (buttonOffset_lt bt), hmask]
  rfl

theorem execGetdp_of_padding (hf : s.readsFree s.target = false) (hp : s.isPadding s.target = true) :
    execGetdp s = .next (s.respond .ok 15) := by
  rw [execGetdp, State.fieldByte_of_not_free hf, State.afterFieldRead_of_not_free hf,
    (s.isPadding_iff _).1 hp _ (by decide)]
  rfl

theorem execIspad_of_padding (hp : s.isPadding s.target = true) : execIspad s = .next (s.respond .ok 1) := by
  rw [execIspad, hp]
  rfl

/-- Settles O41: every byte a getter reads is 0xFF, and its algorithm answers the value of all ones. -/
theorem paddingRecordFieldViews : Obligations.PaddingRecordFieldViews := fun s halg hpad => by
  have hf : s.readsFree s.target = false := State.readsFree_eq_false halg
  have hp : s.isPadding s.target = true := (s.isPadding_iff _).2 hpad
  refine ⟨fun i hi => ?_, fun i hi => ?_, fun i hi => ?_, execGetdp_of_padding hf hp⟩
  · obtain ⟨ax, e⟩ := exec_joystick_getter hi
    exact e ▸ joyGet_of_padding hf hp ax
  · obtain ⟨tr, e⟩ := exec_trigger_getter hi
    exact e ▸ trigGet_of_padding hf hp tr
  · obtain hi | hi := List.mem_append.1 (show i ∈ buttonGetters ++ [.ispad] from hi)
    · obtain ⟨bt, e⟩ := exec_button_getter hi
      exact e ▸ btnGet_of_padding hf hp bt
    · obtain rfl := List.mem_singleton.1 hi
      exact execIspad_of_padding hp

end Sys2Proof.Machine
end

section
/-! PROOFS. The statement of 30_encoding.md on the pseudo-instruction ITER (R66, R206). -/

namespace Sys2Proof.Machine

/-! ## Running one list of commands after another -/

/-- A result, and what runs from its next state. -/
def andThen (r : Result) (f : State → Result) : Result :=
  match r with
  | .next t => f t
  | .fault e => .fault e
  | .refused e => .refused e

@[simp] theorem andThen_next (t : State) (f : State → Result) : andThen (.next t) f = f t := rfl

theorem execAll_cons (i : Instr) (is : List Instr) (s : State) :
    execAll (i :: is) s = andThen (exec i s) (execAll is) := rfl

theorem execAll_append (is js : List Instr) (s : State) :
    execAll (is ++ js) s = andThen (execAll is s) (execAll js) := by
  induction is generalizing s with
  | nil => rfl
  | cons i is ih =>
    rw [List.cons_append, execAll_cons, execAll_cons]
    cases exec i s with
    | next t => exact ih t
    | fault e => rfl
    | refused e => rfl

theorem iterLoop_succ (body : Nat → List Instr) (n i : Nat) (s : State) :
    iterLoop body (n + 1) i s =
      andThen (execAll (body i) ((s.setWsel (BitVec.ofNat 16 i)).respond .ok 0)) (iterLoop body n (i + 1)) := rfl

/-! ## The expansion is the loop -/

theorem exec_getw_of_lt {i : Nat} (hi : i < 65536) (s : State) :
    exec (.getw (Int.ofNat i)) s = .next ((s.setWsel (BitVec.ofNat 16 i)).respond .ok 0) := by
  obtain ⟨h, -⟩ | ⟨-, -, e⟩ := execGetw_cases s (Int.ofNat i)
  · simp only [Int.ofNat_eq_natCast] at h
    omega
  · exact e

/-- The `n` records from record `i` on of the expansion of ITER. -/
def iterFrom (body : Nat → List Instr) (i n : Nat) : List Instr :=
  (List.range' i n).flatMap fun j => .getw (Int.ofNat j) :: body j

theorem expandIter_eq (body : Nat → List Instr) : expandIter body = iterFrom body 0 65536 := by
  rw [expandIter, List.range_eq_range']
  rfl

theorem execAll_iterFrom (body : Nat → List Instr) {n i : Nat} (hi : i + n ≤ 65536) (s : State) :
    execAll (iterFrom body i n) s = iterLoop body n i s := by
  induction n generalizing i s with
  | zero => rfl
  | succ n ih =>
    have hcons : iterFrom body i (n + 1) = .getw (Int.ofNat i) :: body i ++ iterFrom body (i + 1) n := by
      rw [iterFrom, List.range'_succ, List.flatMap_cons, iterFrom]
    rw [hcons, execAll_append, execAll_cons, exec_getw_of_lt (by omega), andThen_next, iterLoop_succ]
    exact congrArg _ (funext fun t => ih (by omega) t)

theorem execAll_expandIter (body : Nat → List Instr) (s : State) :
    execAll (expandIter body) s = iterLoop body 65536 0 s := by
  rw [expandIter_eq, execAll_iterFrom body (Nat.le_refl 65536)]

/-! ## With codec commands between -/

/-- With its streams ready a codec command completes and leaves them ready (R263). -/
theorem exec_codec_completes {s : State} (hs : s.StreamsReady) (i : Instr) (hi : isCodec i = true) :
    ∃ t, exec i s = .next t ∧ t.StreamsReady := by
  obtain ⟨hsrc, hsnk, hfail⟩ := hs
  obtain ⟨st, v, -, -, e | e⟩ | ⟨x, bs, -, -, e⟩ | rfl | rfl := exec_codec_cases s i hi
  · exact ⟨_, e, hsrc, hsnk, hfail⟩
  · exact ⟨_, e, hsrc, hsnk, hfail⟩
  · exact ⟨_, e, hsrc, hsnk, hfail⟩
  · obtain ⟨h, -⟩ | ⟨-, h, -⟩ | ⟨out, -, -, e⟩ := sinkWrite_cases s (s.recordBytes s.target)
    · rw [hfail] at h
      cases h
    · rw [h] at hsnk
      cases hsnk
    · exact ⟨_, e, hsrc, rfl, hfail⟩
  · obtain ⟨h, -⟩ | ⟨sr, -, -, e⟩ | ⟨sr, -, -, e⟩ := execDec_cases s
    · rw [h] at hsrc
      cases hsrc
    · exact ⟨_, e, rfl, hsnk, hfail⟩
    · exact ⟨_, e, rfl, hsnk, hfail⟩

/-- Codec commands run to the end from a state whose streams are ready, and write neither register. -/
theorem execAll_codec_completes {is : List Instr} (his : is.all isCodec = true) {s : State} (hs : s.StreamsReady) :
    ∃ t, execAll is s = .next t ∧ t.StreamsReady ∧ SameRegisters s t := by
  induction is generalizing s with
  | nil => exact ⟨s, rfl, hs, rfl, rfl⟩
  | cons i is ih =>
    rw [List.all_cons, Bool.and_eq_true] at his
    obtain ⟨hi, his⟩ := his
    obtain ⟨t, ht, hst⟩ := exec_codec_completes hs i hi
    obtain ⟨hcur, hwsel⟩ := exec_codec_sameRegisters s i hi t ht
    obtain ⟨u, hu, hsu, hcur', hwsel'⟩ := ih his hst
    exact ⟨u, by rw [execAll_cons, ht, andThen_next, hu], hsu, hcur'.trans hcur, hwsel'.trans hwsel⟩

/-- The loop over records `i` to `i + n` with codec commands between leaves its last record selected. -/
theorem iterLoop_completes {body : Nat → List Instr} {n i : Nat} (hb : ∀ j, j ≤ i + n → (body j).all isCodec = true)
    {s : State} (hs : s.StreamsReady) :
    ∃ t, iterLoop body (n + 1) i s = .next t ∧ t.wsel = BitVec.ofNat 16 (i + n) ∧ t.cur = s.cur := by
  induction n generalizing i s with
  | zero =>
    obtain ⟨t, ht, -, hcur, hwsel⟩ :=
      execAll_codec_completes (hb i le_rfl) (s := (s.setWsel (BitVec.ofNat 16 i)).respond .ok 0) hs
    exact ⟨t, by rw [iterLoop_succ, ht, andThen_next, iterLoop], hwsel, hcur⟩
  | succ n ih =>
    obtain ⟨t, ht, hst, hcur, -⟩ :=
      execAll_codec_completes (hb i (by omega)) (s := (s.setWsel (BitVec.ofNat 16 i)).respond .ok 0) hs
    obtain ⟨u, hu, hwsel, hcur'⟩ := ih (i := i + 1) (fun j hj => hb j (by omega)) hst
    exact ⟨u, by rw [iterLoop_succ, ht, andThen_next, hu], by rw [hwsel, Nat.add_right_comm, Nat.add_assoc],
      hcur'.trans hcur⟩

/-! ## Without commands between -/

theorem iterLoop_nil (n i : Nat) (s : State) :
    iterLoop (fun _ => []) (n + 1) i s = .next { s with
      wsel := BitVec.ofNat 16 (i + n), resps := s.resps ++ List.replicate (n + 1) ⟨.ok, 0⟩ } := by
  induction n generalizing i s with
  | zero => rfl
  | succ n ih =>
    rw [iterLoop_succ, execAll, andThen_next, ih, State.respond_resps, State.setWsel_resps, List.append_assoc,
      List.singleton_append, ← List.replicate_succ, Nat.add_right_comm, Nat.add_assoc]
    rfl

/-- Settles O60: every index is legal, so the expansion runs as the loop of R66, and a codec command never stops it. -/
theorem iterationEndsAtLastRecord : Obligations.IterationEndsAtLastRecord := by
  have hgetw : (expandIter fun _ => []) = (List.range 65536).map fun i => .getw (Int.ofNat i) := List.map_eq_flatMap.symm
  refine ⟨⟨?_, fun i hi => ?_⟩, execAll_expandIter, fun body s hb _ hs => ?_, fun s => ?_⟩
  · rw [hgetw, List.length_map, List.length_range]
  · rw [hgetw, List.getElem?_map, List.getElem?_range hi]
    rfl
  · rw [execAll_expandIter]
    exact iterLoop_completes (n := 65535) (fun i hi => hb i (by omega)) hs
  · rw [execAll_expandIter]
    exact ⟨_, iterLoop_nil 65535 0 s, rfl, rfl, rfl, rfl, rfl, rfl, rfl⟩

end Sys2Proof.Machine
end

section
/-! PROOFS. The statement of 40_lsu.md on the fault of an address outside the frame memory (R88, U10): only `WNEXT` above the last slot can raise it, and the invariant shuts that out (R13, R22). -/

namespace Sys2Proof.Machine

/-- A result that is no fault. -/
def NoFault (r : Result) : Prop := ∀ f, r ≠ .fault f

@[simp] theorem noFault_next (t : State) : NoFault (.next t) := nofun

@[simp] theorem noFault_refused (e : Refusal) : NoFault (.refused e) := nofun

variable {s : State} {r : Result}

theorem OnlyAnswers.noFault (h : OnlyAnswers s r) : NoFault r := by
  obtain ⟨st, v, -, -, rfl | rfl⟩ := h <;> exact noFault_next _

theorem StoresInTarget.noFault (h : StoresInTarget s r) : NoFault r := by
  obtain ⟨x, bs, -, -, rfl⟩ := h
  exact noFault_next _

variable (s)

theorem sinkWrite_noFault (bs : List Byte) : NoFault (sinkWrite bs s) := by
  obtain ⟨-, e⟩ | ⟨-, -, e⟩ | ⟨out, -, -, e⟩ := sinkWrite_cases s bs <;> simp [e]

theorem execDec_noFault : NoFault (execDec s) := by
  obtain ⟨-, e⟩ | ⟨sr, -, -, e⟩ | ⟨sr, -, -, e⟩ := execDec_cases s <;> simp [e]

theorem execDeser_noFault : NoFault (execDeser s) := by
  obtain ⟨-, e⟩ | ⟨sr, n, -, -, -, e⟩ | ⟨sr, -, -, e⟩ := execDeser_cases s <;> simp [e]

theorem execGetw_noFault (i : Int) : NoFault (execGetw i s) := by
  obtain ⟨-, e⟩ | ⟨-, -, e⟩ := execGetw_cases s i <;> simp [e]

/-- `WNEXT` at a cursor of the invariant writes a slot of the frame memory, or answers `CapacityError` (R201). -/
theorem execWnext_noFault (hcur : s.cur ≤ 65536) (ms : List Mutator) : NoFault (execWnext ms s) := by
  obtain ⟨-, e⟩ | ⟨habove, -⟩ | ⟨m, -, -, -, ⟨-, e⟩ | ⟨-, e⟩⟩ := execWnext_cases s ms
  · simp [e]
  · omega
  · simp [e]
  · simp [e]

theorem exec_codec_noFault (i : Instr) (hi : isCodec i = true) : NoFault (exec i s) := by
  obtain h | h | rfl | rfl := exec_codec_cases s i hi
  · exact h.noFault
  · exact h.noFault
  · exact sinkWrite_noFault s _
  · exact execDec_noFault s

theorem exec_noFault (hcur : s.cur ≤ 65536) (i : Instr) : NoFault (exec i s) := by
  cases i with
  | cinit => exact noFault_next _
  | wnext ms => exact execWnext_noFault s hcur ms
  | finish => exact noFault_next _
  | getw j => exact execGetw_noFault s j
  | ser => exact sinkWrite_noFault s _
  | deser => exact execDeser_noFault s
  | _ => exact exec_codec_noFault s _ rfl

theorem step_noFault (hcur : s.cur ≤ 65536) : NoFault (step s) := by
  obtain ⟨-, e⟩ | ⟨w, ws, i, rest, -, -, e⟩ | ⟨w, ws, err, rest, -, -, e⟩ := step_cases s <;> rw [e]
  · exact noFault_next _
  · exact exec_noFault (s.setCmds rest) hcur i
  · exact noFault_next _

/-- Settles O18: the one command that can fault needs `CUR` above 65536. -/
theorem noFaultInInvariantStates : Obligations.NoFaultInInvariantStates :=
  fun s f ⟨_, hcur, _⟩ => step_noFault s hcur f

end Sys2Proof.Machine
end

section
/-! PROOFS. The statements of 40_lsu.md on the load/store unit (R80 to R87): what each write leaves in its bytes, what it leaves unchanged, and what the matching read answers. -/

namespace Sys2Proof.Machine

/-! ## Bits and nibbles of one byte -/

theorem twoPow_eight_ne_zero (j : Fin 8) : BitVec.twoPow 8 j ≠ 0 := by
  revert j
  decide

/-- The test with a one-bit mask answers that bit (R84). -/
theorem testMask_twoPow (b : Byte) (j : Fin 8) : testMask b (BitVec.twoPow 8 j) = b.getLsbD j := by
  rw [testMask, BitVec.and_twoPow]
  cases hbit : b.getLsbD j with
  | true => exact decide_eq_true (twoPow_eight_ne_zero j)
  | false => rfl

/-- The write with a one-bit mask sets that bit and keeps the others (R85). -/
theorem getLsbD_writeMask_twoPow (b : Byte) (j : Fin 8) (v : Bool) (n : Nat) :
    (writeMask b (BitVec.twoPow 8 j) v).getLsbD n = if n = j then v else b.getLsbD n := by
  have hmask : (BitVec.twoPow 8 j).getLsbD n = decide (n = j) := by
    simp [BitVec.getLsbD_twoPow, eq_comm]
  cases v with
  | true =>
    rw [writeMask, if_pos rfl, BitVec.getLsbD_or, hmask]
    by_cases h : n = j <;> simp [h]
  | false =>
    have hnot : 0xFF#8 - BitVec.twoPow 8 j = ~~~BitVec.twoPow 8 j := BitVec.allOnes_sub_eq_not _
    rw [writeMask, if_neg Bool.false_ne_true, hnot, BitVec.getLsbD_and, BitVec.getLsbD_not, hmask]
    by_cases h : n = j
    · simp [h]
    · simpa [h] using BitVec.lt_of_getLsbD

theorem lowNibble_eq_mod (b : Byte) : lowNibble b = b.toNat % 16 := Nat.and_two_pow_sub_one_eq_mod b.toNat 4

/-- Clearing the low nibble leaves the high one in its place. -/
theorem toNat_and_highNibble (b : Byte) : (b &&& 0xF0#8).toNat = (b.toNat / 16) <<< 4 := by
  have hb := b.isLt
  have hshift : b &&& 0xF0#8 = b >>> 4 <<< 4 := (BitVec.shiftLeft_ushiftRight (x := b) (n := 4)).symm
  rw [hshift, BitVec.toNat_shiftLeft, BitVec.toNat_ushiftRight, Nat.shiftRight_eq_div_pow, Nat.shiftLeft_eq]
  omega

/-- The nibble write keeps the high nibble and puts the code below it (R87). -/
theorem toNat_writeNibble (b : Byte) {c : Nat} (hc : c ≤ 15) :
    (writeNibble b c).toNat = b.toNat / 16 * 16 + c := by
  have hlow : c < 2 ^ 4 := by omega
  rw [writeNibble, BitVec.toNat_or, toNat_and_highNibble, BitVec.toNat_ofNat, Nat.mod_eq_of_lt (by omega),
    ← Nat.shiftLeft_add_eq_or_of_lt hlow, Nat.shiftLeft_eq]

/-! ## What a store leaves unchanged, and what a load answers after it -/

variable (s : State) (t k : Nat)

theorem State.sameControl_setBytes (x : Nat) (bs : List Byte) : SameControl s (s.setBytes x bs) :=
  ⟨rfl, rfl, rfl, rfl, rfl, rfl, rfl⟩

/-- `ST8` writes one byte of frame memory and nothing else (R81). -/
theorem State.st8_frame (b : Byte) :
    SameOutside s (s.st8 t k b) (byteAddr t k) 1 ∧ SameControl s (s.st8 t k b) ∧ (s.st8 t k b).resps = s.resps :=
  ⟨s.sameOutside_setBytes le_rfl le_rfl, s.sameControl_setBytes _ _, rfl⟩

@[simp] theorem State.ld8_st8 (b : Byte) : (s.st8 t k b).ld8 t k = b := by
  rw [State.ld8, State.byteAt_st8, if_pos rfl]

/-! ## The statements -/

/-- Settles O23: the byte stored is the byte at its address, and its length bounds the run. -/
theorem byteWriteThenRead : Obligations.ByteWriteThenRead := fun s t k b _ =>
  ⟨rfl, Nat.le_of_lt_succ (s.ld8 t k).isLt, s.ld8_st8 t k b, s.ld8_st8 t k b, s.st8_frame t k b⟩

/-- Settles O22: `ST16LE` is a `MemWrite` of `u mod 65536`, whose bytes and read back are those of R30. -/
theorem littleEndianHalfWriteThenRead : Obligations.LittleEndianHalfWriteThenRead := fun s t k u _ => by
  obtain ⟨hbyte, hsame, hread⟩ := memReadAfterMemWrite s (byteAddr t k) 2 (u % 65536).toNat
  refine ⟨s.ld16le_eq t k, ?_, ?_, hsame, s.sameControl_setBytes _ _, rfl, ?_⟩
  · have hlow : ((s.st16le t k u).byteAt (byteAddr t k)).toNat = (u % 65536).toNat / 256 ^ 0 % 256 :=
      hbyte 0 (by decide)
    omega
  · have hhigh : ((s.st16le t k u).byteAt (byteAddr t (k + 1))).toNat = (u % 65536).toNat / 256 ^ 1 % 256 :=
      hbyte 1 (by decide)
    omega
  · have hhalf : (s.st16le t k u).ld16le t k = (u % 65536).toNat % 256 ^ 2 := hread
    omega

/-- Settles O24: `BWRITE` is an `ST8` of the byte with its masked bit replaced. -/
theorem maskedBitWriteChangesOneBit : Obligations.MaskedBitWriteChangesOneBit := fun s t k j b _ => by
  have hbits (n : Nat) : ((s.bwrite t k (BitVec.twoPow 8 j) b).ld8 t k).getLsbD n =
      if n = j then b else (s.ld8 t k).getLsbD n := by
    rw [State.bwrite, State.ld8_st8, getLsbD_writeMask_twoPow]
  refine ⟨testMask_twoPow _ j, ?_, hbits, s.st8_frame t k _⟩
  rw [State.btest, testMask_twoPow, hbits, if_pos rfl]

/-- Settles O25: `NIBWR` is an `ST8` of the byte with its low nibble replaced. -/
theorem nibbleWriteKeepsHighNibble : Obligations.NibbleWriteKeepsHighNibble := fun s t k c _ hc => by
  have hbyte : ((s.nibwr t k c).ld8 t k).toNat = (s.ld8 t k).toNat / 16 * 16 + c := by
    rw [State.nibwr, State.ld8_st8, toNat_writeNibble _ hc]
  refine ⟨lowNibble_eq_mod _, hbyte, ?_, s.st8_frame t k _⟩
  rw [State.nibrd, lowNibble_eq_mod, hbyte]
  omega

end Sys2Proof.Machine
end

section
/-! PROOFS. The laws of the words that the instruction rules state (R57, R58): a word given by its number spells what the opcode table reads from its opcode and immediate. -/

namespace Sys2Proof

open Sys2Proof.Machine

/-- `C = (IMM << 8) | OP` (R57). -/
theorem ofNat_eq_mkWord (op : Opcode) (imm : Nat) :
    BitVec.ofNat 32 (256 * imm + op.toNat) = mkWord op (BitVec.ofNat 24 imm) := by
  have hop := op.isLt
  apply BitVec.eq_of_toNat_eq
  rw [mkWord, BitVec.toNat_append, ← Nat.shiftLeft_add_eq_or_of_lt op.isLt, Nat.shiftLeft_eq, BitVec.toNat_ofNat,
    BitVec.toNat_ofNat]
  omega

/-- A word whose opcode is not that of a `WNEXT` header spells what the opcode table has for it, and
takes no word after it. -/
theorem wordSpells_of_decodeOp {op : Opcode} {imm : Nat} {i : Instr} (hop : op ≠ 0xC1#8)
    (h : decodeOp op (BitVec.ofNat 24 imm) = .ok i) : WordSpells (256 * imm + op.toNat) i := fun ws => by
  rw [ofNat_eq_mkWord, decodeCmd_of_not_header (by rwa [opOf_mkWord]), decodeOne, opOf_mkWord, immOf_mkWord, h]

/-- `sext_24` of the spec is the signed reading of the immediate (R61). -/
theorem toInt_ofNat_eq_sext24 {imm : Nat} (himm : imm < 16777216) : (BitVec.ofNat 24 imm).toInt = sext24 imm := by
  rw [BitVec.toInt_eq_toNat_cond, BitVec.toNat_ofNat, Nat.mod_eq_of_lt himm, sext24]
  split <;> split <;> omega

/-- Format `Z` (R58): the opcode alone is the word. -/
theorem wordSpells_of_formatZ {op : Opcode} {i : Instr} (hop : op ≠ 0xC1#8)
    (h : ∀ imm, decodeOp op imm = formatZ i imm) : WordSpells op.toNat i := by
  have hword := wordSpells_of_decodeOp hop (imm := 0) (h 0)
  rwa [Nat.mul_zero, Nat.zero_add] at hword

/-- Format `S` (R58, R61): every immediate is legal. -/
theorem signedFormat_of_formatS {op : Opcode} {f : Int → Instr} (hop : op ≠ 0xC1#8)
    (h : ∀ imm, decodeOp op imm = formatS f imm) : SignedFormat op.toNat f := fun imm himm =>
  wordSpells_of_decodeOp hop (by rw [h, formatS, toInt_ofNat_eq_sext24 himm])

end Sys2Proof
end

section
/-! PROOFS. The statements of 41_joystick.md (R100 to R109): what a getter answers, what a setter stores or refuses, and the value read back. -/

namespace Sys2Proof.Machine

variable {s : State} {v : Int}

/-! ## Reading an axis -/

/-- `JoyRead` (R100) in terms of the two bytes of its field. -/
theorem joyGet_of_not_free (h : s.readsFree s.target = false) (ax : Axis) :
    joyGet ax s = .next (s.respond .ok (((s.byteAt (byteAddr s.target (axisOffset ax))).toNat : Int) +
      256 * (s.byteAt (byteAddr s.target (axisOffset ax + 1))).toNat - 2048)) := by
  rw [joyGet, State.fieldHalf_of_not_free h, State.afterFieldRead_of_not_free h, State.ld16le_eq, Nat.cast_add,
    Nat.cast_mul]
  rfl

/-- Settles O27: the field of a record that is not read freely is the half at its offset. -/
theorem getJoystickReadsBiasedHalf : Obligations.GetJoystickReadsBiasedHalf := fun p hp => by
  simp only [List.mem_cons, List.not_mem_nil, or_false] at hp
  obtain rfl | rfl | rfl | rfl := hp
  · exact ⟨wordSpells_of_formatZ (op := 0x10#8) (by decide) fun _ => rfl, fun _ h => joyGet_of_not_free h .lh⟩
  · exact ⟨wordSpells_of_formatZ (op := 0x11#8) (by decide) fun _ => rfl, fun _ h => joyGet_of_not_free h .lv⟩
  · exact ⟨wordSpells_of_formatZ (op := 0x12#8) (by decide) fun _ => rfl, fun _ h => joyGet_of_not_free h .rh⟩
  · exact ⟨wordSpells_of_formatZ (op := 0x13#8) (by decide) fun _ => rfl, fun _ h => joyGet_of_not_free h .rv⟩

/-! ## Writing an axis -/

/-- `SETJ` of one axis, issued directly (R60, R105 to R108). -/
theorem exec_setj (ax : Axis) (v : Int) (s : State) :
    exec (ofMutator (.setj ax v)) s = complete (joyWrite s.target ax v s) s := exec_ofMutator s (.setj ax v)

theorem exec_setj_of_outside (h : v < -2048 ∨ 2047 < v) (ax : Axis) :
    exec (ofMutator (.setj ax v)) s = .next (s.respond .rangeError 0) := by
  rw [exec_setj, joyWrite, if_pos h]
  rfl

/-- The state after a `SETJ` that completes. -/
def State.afterSetj (s : State) (ax : Axis) (v : Int) : State :=
  (s.st16le s.target (axisOffset ax) (v + 2048)).respond .ok 0

theorem exec_setj_of_range (h : -2048 ≤ v ∧ v ≤ 2047) (ax : Axis) :
    exec (ofMutator (.setj ax v)) s = .next (s.afterSetj ax v) := by
  rw [exec_setj, joyWrite, if_neg (show ¬(v < -2048 ∨ 2047 < v) by omega)]
  rfl

@[simp] theorem State.target_afterSetj (ax : Axis) : (s.afterSetj ax v).target = s.target := rfl

/-- What a `SETJ` that completes does from `s` to `t` (R100): the biased value stands in the axis's two bytes, low byte
first, and nothing else changed but the response. -/
abbrev StoresAxis (ax : Axis) (v : Int) (s t : State) : Prop :=
  Answered s t .ok 0 ∧ SameControl s t ∧
    ((t.byteAt (byteAddr s.target (axisOffset ax))).toNat : Int) = (v + 2048) % 256 ∧
    ((t.byteAt (byteAddr s.target (axisOffset ax + 1))).toNat : Int) = (v + 2048) / 256 ∧
    SameOutside s t (byteAddr s.target (axisOffset ax)) 2

theorem State.afterSetj_storesAxis (h : -2048 ≤ v ∧ v ≤ 2047) (ax : Axis) :
    StoresAxis ax v s (s.afterSetj ax v) := by
  have hk := axisOffset_succ_lt ax
  obtain ⟨-, hlow, hhigh, hsame, hcontrol, -, -⟩ :=
    littleEndianHalfWriteThenRead s s.target (axisOffset ax) (v + 2048) (by omega)
  rw [Int.emod_eq_of_lt (by omega) (by omega)] at hhigh
  exact ⟨rfl, hcontrol, hlow, hhigh, hsame⟩

theorem exec_setj_stores_or_refuses (ax : Axis) (s : State) (v : Int) :
    (-2048 ≤ v ∧ v ≤ 2047 → ∃ t, exec (ofMutator (.setj ax v)) s = .next t ∧ StoresAxis ax v s t) ∧
    (v < -2048 ∨ 2047 < v → exec (ofMutator (.setj ax v)) s = .next (s.respond .rangeError 0)) :=
  ⟨fun h => ⟨_, exec_setj_of_range h ax, State.afterSetj_storesAxis h ax⟩, fun h => exec_setj_of_outside h ax⟩

/-- Settles O28: in range the setter is an `ST16LE` of the biased value, outside it a `RangeError`. -/
theorem setJoystickStoresOrRefusesRange : Obligations.SetJoystickStoresOrRefusesRange := fun p hp => by
  simp only [List.mem_cons, List.not_mem_nil, or_false] at hp
  obtain rfl | rfl | rfl | rfl := hp
  · exact ⟨signedFormat_of_formatS (op := 0x20#8) (by decide) fun _ => rfl, exec_setj_stores_or_refuses .lh⟩
  · exact ⟨signedFormat_of_formatS (op := 0x21#8) (by decide) fun _ => rfl, exec_setj_stores_or_refuses .lv⟩
  · exact ⟨signedFormat_of_formatS (op := 0x22#8) (by decide) fun _ => rfl, exec_setj_stores_or_refuses .rh⟩
  · exact ⟨signedFormat_of_formatS (op := 0x23#8) (by decide) fun _ => rfl, exec_setj_stores_or_refuses .rv⟩

/-! ## Setting, then getting -/

/-- The high byte of a biased value is at most 15, so the record is not padding and no read of it is free (R54, U1). -/
theorem State.afterSetj_not_free (h : -2048 ≤ v ∧ v ≤ 2047) (ax : Axis) :
    (s.afterSetj ax v).readsFree (s.afterSetj ax v).target = false := by
  obtain ⟨-, -, -, hhigh, -⟩ := State.afterSetj_storesAxis (s := s) h ax
  refine Bool.eq_false_iff.2 fun hfree => ?_
  obtain ⟨-, hpad⟩ := State.readsFree_iff.1 hfree
  rw [State.target_afterSetj] at hpad
  rw [hpad _ (axisOffset_succ_lt ax), BitVec.toNat_ofNat] at hhigh
  omega

/-- The two bytes that the setter stores recombine to the value that was set (R109). -/
theorem exec_setj_then_joyGet (h : -2048 ≤ v ∧ v ≤ 2047) (ax : Axis) :
    ∃ t, exec (ofMutator (.setj ax v)) s = .next t ∧ joyGet ax t = .next (t.respond .ok v) := by
  obtain ⟨-, -, hlow, hhigh, -⟩ := State.afterSetj_storesAxis (s := s) h ax
  have hvalue : (v + 2048) % 256 + 256 * ((v + 2048) / 256) - 2048 = v := by omega
  refine ⟨_, exec_setj_of_range h ax, ?_⟩
  rw [joyGet_of_not_free (State.afterSetj_not_free h ax), State.target_afterSetj, hlow, hhigh, hvalue]

/-- Settles O29: after a setter in range the getter reads the two bytes stored, and never a free value. -/
theorem joystickSetThenGet : Obligations.JoystickSetThenGet := fun s v hlo hhi p hp => by
  simp only [List.mem_cons, List.not_mem_nil, or_false] at hp
  obtain rfl | rfl | rfl | rfl := hp
  · exact exec_setj_then_joyGet ⟨hlo, hhi⟩ .lh
  · exact exec_setj_then_joyGet ⟨hlo, hhi⟩ .lv
  · exact exec_setj_then_joyGet ⟨hlo, hhi⟩ .rh
  · exact exec_setj_then_joyGet ⟨hlo, hhi⟩ .rv

end Sys2Proof.Machine
end

section
/-! PROOFS. The statements of 42_trigger.md (R120 to R124): what a getter answers, and what a setter stores or refuses. -/

namespace Sys2Proof.Machine

variable {s : State} {v : Int}

/-! ## Reading a trigger -/

/-- `TrigRead` (R120) in terms of the byte of its field. -/
theorem trigGet_of_not_free (h : s.readsFree s.target = false) (tr : Trigger) :
    trigGet tr s = .next (s.respond .ok ((s.byteAt (byteAddr s.target (triggerOffset tr))).toNat : Int)) := by
  rw [trigGet, State.fieldByte_of_not_free h, State.afterFieldRead_of_not_free h]
  rfl

/-- Settles O30: the field of a record that is not read freely is the byte at its offset. -/
theorem getTriggerReadsByte : Obligations.GetTriggerReadsByte := fun p hp => by
  simp only [List.mem_cons, List.not_mem_nil, or_false] at hp
  obtain rfl | rfl := hp
  · exact ⟨wordSpells_of_formatZ (op := 0x30#8) (by decide) fun _ => rfl, fun _ h => trigGet_of_not_free h .zl⟩
  · exact ⟨wordSpells_of_formatZ (op := 0x31#8) (by decide) fun _ => rfl, fun _ h => trigGet_of_not_free h .zr⟩

/-! ## Writing a trigger -/

/-- `SETT` of one trigger, issued directly (R60, R123, R124). -/
theorem exec_sett (tr : Trigger) (v : Int) (s : State) :
    exec (ofMutator (.sett tr v)) s = complete (trigWrite s.target tr v s) s := exec_ofMutator s (.sett tr v)

theorem exec_sett_of_outside (h : v < 0 ∨ 255 < v) (tr : Trigger) :
    exec (ofMutator (.sett tr v)) s = .next (s.respond .rangeError 0) := by
  rw [exec_sett, trigWrite, if_pos h]
  rfl

/-- The state after a `SETT` that completes. -/
def State.afterSett (s : State) (tr : Trigger) (v : Int) : State :=
  (s.st8 s.target (triggerOffset tr) (BitVec.ofInt 8 v)).respond .ok 0

theorem exec_sett_of_range (h : 0 ≤ v ∧ v ≤ 255) (tr : Trigger) :
    exec (ofMutator (.sett tr v)) s = .next (s.afterSett tr v) := by
  rw [exec_sett, trigWrite, if_neg (show ¬(v < 0 ∨ 255 < v) by omega)]
  rfl

/-- What a `SETT` that completes does from `s` to `t` (R120): the value stands unbiased in the trigger's byte, and nothing
else changed but the response. -/
abbrev StoresTrigger (tr : Trigger) (v : Int) (s t : State) : Prop :=
  Answered s t .ok 0 ∧ SameControl s t ∧ ((t.byteAt (byteAddr s.target (triggerOffset tr))).toNat : Int) = v ∧
    SameOutside s t (byteAddr s.target (triggerOffset tr)) 1

/-- A value in the trigger's domain is the byte stored for it. -/
theorem toNat_ofInt_byte (h : 0 ≤ v ∧ v ≤ 255) : ((BitVec.ofInt 8 v).toNat : Int) = v := by
  rw [BitVec.toNat_ofInt]
  omega

theorem State.afterSett_storesTrigger (h : 0 ≤ v ∧ v ≤ 255) (tr : Trigger) :
    StoresTrigger tr v s (s.afterSett tr v) := by
  obtain ⟨hsame, hcontrol, -⟩ := s.st8_frame s.target (triggerOffset tr) (BitVec.ofInt 8 v)
  have hbyte : (s.afterSett tr v).byteAt (byteAddr s.target (triggerOffset tr)) = BitVec.ofInt 8 v :=
    s.ld8_st8 _ _ _
  exact ⟨rfl, hcontrol, by rw [hbyte, toNat_ofInt_byte h], hsame⟩

theorem exec_sett_stores_or_refuses (tr : Trigger) (s : State) (v : Int) :
    (0 ≤ v ∧ v ≤ 255 → ∃ t, exec (ofMutator (.sett tr v)) s = .next t ∧ StoresTrigger tr v s t) ∧
    (v < 0 ∨ 255 < v → exec (ofMutator (.sett tr v)) s = .next (s.respond .rangeError 0)) :=
  ⟨fun h => ⟨_, exec_sett_of_range h tr, State.afterSett_storesTrigger h tr⟩, fun h => exec_sett_of_outside h tr⟩

/-- Settles O31: in range the setter is an `ST8` of the value itself, outside it a `RangeError`. -/
theorem setTriggerStoresOrRefusesRange : Obligations.SetTriggerStoresOrRefusesRange := fun p hp => by
  simp only [List.mem_cons, List.not_mem_nil, or_false] at hp
  obtain rfl | rfl := hp
  · exact ⟨signedFormat_of_formatS (op := 0x40#8) (by decide) fun _ => rfl, exec_sett_stores_or_refuses .zl⟩
  · exact ⟨signedFormat_of_formatS (op := 0x41#8) (by decide) fun _ => rfl, exec_sett_stores_or_refuses .zr⟩

end Sys2Proof.Machine
end

section
/-! PROOFS. The law of the words of format `B` (R58, R61), beside those of formats `Z` and `S`. -/

namespace Sys2Proof

open Sys2Proof.Machine

/-- Format `B` (R58, R61): the immediates 0 and 1 are legal, every other one is not. -/
theorem boolFormat_of_formatB {op : Opcode} {f : Bool → Instr} (hop : op ≠ 0xC1#8)
    (h : ∀ imm, decodeOp op imm = formatB f imm) : BoolFormat op.toNat f := by
  have hspells (b : Bool) : WordSpells (256 * b.toNat + op.toNat) (f b) :=
    wordSpells_of_decodeOp hop (by rw [h, formatB_ofBool])
  refine ⟨by simpa using hspells false, hspells true, fun imm hlo hhi ws => ?_⟩
  have himm : (BitVec.ofNat 24 imm).toNat = imm :=
    (BitVec.toNat_ofNat _ _).trans (Nat.mod_eq_of_lt hhi)
  rw [ofNat_eq_mkWord, decodeCmd_of_not_header (by rwa [opOf_mkWord]), decodeOne, opOf_mkWord, immOf_mkWord, h]
  obtain ⟨hlt, -⟩ | ⟨-, herror⟩ := formatB_cases f (BitVec.ofNat 24 imm)
  · omega
  · exact herror

end Sys2Proof
end

section
/-! PROOFS. The statements of 43_buttons.md (R130 to R160): which bit a getter answers, which bit a setter writes, and that the bits of different buttons are apart. -/

namespace Sys2Proof.Machine

variable {s : State}

/-! ## The bit of a button -/

/-- The bit that a button has within its byte (R51, R52). -/
def buttonBit : Button → Fin 8
  | .a | .ls => 0
  | .b | .rs => 1
  | .y | .minus => 2
  | .x | .plus => 3
  | .l | .home => 4
  | .r | .shot => 5
  | .zl => 6
  | .zr => 7

theorem buttonMask_eq_twoPow (bt : Button) : buttonMask bt = BitVec.twoPow 8 (buttonBit bt) := by
  cases bt <;> rfl

/-- The buttons of byte 12, in the order of the opcode map (R51, R59). -/
def faceButtons : List Button := [.l, .r, .zl, .zr, .a, .b, .y, .x]

/-- The buttons of byte 13, in the order of the opcode map (R52, R59). -/
def secondaryButtons : List Button := [.home, .shot, .ls, .rs, .minus, .plus]

theorem buttonOffset_of_face : ∀ bt ∈ faceButtons, buttonOffset bt = 12 := by decide

theorem buttonOffset_of_secondary : ∀ bt ∈ secondaryButtons, buttonOffset bt = 13 := by decide

theorem mem_face_append_secondary (bt : Button) : bt ∈ faceButtons ++ secondaryButtons := by
  cases bt <;> decide

/-- No two buttons share a bit of the record (R160). -/
theorem button_eq_of_offset_bit {p q : Button} (hoff : buttonOffset p = buttonOffset q)
    (hbit : buttonBit p = buttonBit q) : p = q := by
  have hnodup : ((faceButtons ++ secondaryButtons).map fun bt => (buttonOffset bt, buttonBit bt)).Nodup := by decide
  exact List.inj_on_of_nodup_map hnodup (mem_face_append_secondary p) (mem_face_append_secondary q)
    (Prod.ext hoff hbit)

theorem buttonOffset_ne_dpad (bt : Button) : buttonOffset bt ≠ 14 := by cases bt <;> decide

/-- The masked test of a button answers its bit (R84, R130). -/
theorem testMask_buttonMask (w : Byte) (bt : Button) : testMask w (buttonMask bt) = w.getLsbD (buttonBit bt) := by
  rw [buttonMask_eq_twoPow, testMask_twoPow]

/-! ## Reading a button -/

/-- The command `GETB` of a button (R132 to R145). -/
def getButton : Button → Instr
  | .l => .getbL
  | .r => .getbR
  | .zl => .getbZl
  | .zr => .getbZr
  | .a => .getbA
  | .b => .getbB
  | .y => .getbY
  | .x => .getbX
  | .home => .getbHome
  | .shot => .getbShot
  | .ls => .getbLs
  | .rs => .getbRs
  | .minus => .getbMinus
  | .plus => .getbPlus

theorem exec_getButton (bt : Button) : exec (getButton bt) = btnGet bt := by cases bt <;> rfl

theorem opcode_getButton_ne_header (bt : Button) : opcode (getButton bt) ≠ 0xC1#8 := by cases bt <;> decide

theorem decodeOp_getButton (bt : Button) (imm : Imm) :
    decodeOp (opcode (getButton bt)) imm = formatZ (getButton bt) imm := by cases bt <;> rfl

theorem wordSpells_getButton (bt : Button) : WordSpells (opcode (getButton bt)).toNat (getButton bt) :=
  wordSpells_of_formatZ (opcode_getButton_ne_header bt) (decodeOp_getButton bt)

/-- `BtnRead` (R130) in terms of the bit of its field. -/
theorem exec_getButton_of_not_free (h : s.readsFree s.target = false) (bt : Button) :
    exec (getButton bt) s = .next (s.respond .ok
      (if (s.byteAt (byteAddr s.target (buttonOffset bt))).getLsbD (buttonBit bt) then 1 else 0)) := by
  rw [exec_getButton, btnGet, State.fieldByte_of_not_free h, State.afterFieldRead_of_not_free h, testMask_buttonMask,
    State.ld8]
  cases (s.byteAt (byteAddr s.target (buttonOffset bt))).getLsbD (buttonBit bt) <;> rfl

/-- The row of a `GETB` command in the tables of 43_buttons.md: the command, its word and its bit. -/
def getButtonRow (bt : Button) : Instr × Nat × Nat := (getButton bt, (opcode (getButton bt)).toNat, buttonBit bt)

/-- Settles O32: a row of the table is `BtnRead` of a button of byte 12. -/
theorem getFaceButtonsReadTheirBit : Obligations.GetFaceButtonsReadTheirBit := fun p hp => by
  obtain ⟨bt, hbt, rfl⟩ := List.mem_map.1 (show p ∈ faceButtons.map getButtonRow from hp)
  rw [← buttonOffset_of_face bt hbt]
  exact ⟨wordSpells_getButton bt, fun _ h => exec_getButton_of_not_free h bt⟩

/-- Settles O33: a row of the table is `BtnRead` of a button of byte 13. -/
theorem getSecondaryButtonsReadTheirBit : Obligations.GetSecondaryButtonsReadTheirBit := fun p hp => by
  obtain ⟨bt, hbt, rfl⟩ := List.mem_map.1 (show p ∈ secondaryButtons.map getButtonRow from hp)
  rw [← buttonOffset_of_secondary bt hbt]
  exact ⟨wordSpells_getButton bt, fun _ h => exec_getButton_of_not_free h bt⟩

/-! ## Writing a button -/

/-- The command `SETB` of a button (R146 to R159). -/
def setButton (bt : Button) (b : Bool) : Instr := ofMutator (.setb bt b)

theorem opcode_setButton_ne_header (bt : Button) : opcode (setButton bt false) ≠ 0xC1#8 := opcode_ofMutator_ne _

theorem decodeOp_setButton (bt : Button) (imm : Imm) :
    decodeOp (opcode (setButton bt false)) imm = formatB (setButton bt) imm := by cases bt <;> rfl

theorem boolFormat_setButton (bt : Button) : BoolFormat (opcode (setButton bt false)).toNat (setButton bt) :=
  boolFormat_of_formatB (opcode_setButton_ne_header bt) (decodeOp_setButton bt)

/-- The state after a `SETB`. -/
def State.afterSetb (s : State) (bt : Button) (b : Bool) : State :=
  (s.bwrite s.target (buttonOffset bt) (buttonMask bt) b).respond .ok 0

/-- `SETB` of one button, issued directly (R60, R131): it has no range failure. -/
theorem exec_setButton (bt : Button) (b : Bool) (s : State) :
    exec (setButton bt b) s = .next (s.afterSetb bt b) := exec_ofMutator s (.setb bt b)

/-- What a `SETB` does from `s` to `t` (R131): the button's bit of the selected record is `b`, and nothing else changed but
the response. -/
abbrev WritesButton (bt : Button) (b : Bool) (s t : State) : Prop :=
  Answered s t .ok 0 ∧ SameControl s t ∧
    (∀ n : Nat, (t.byteAt (byteAddr s.target (buttonOffset bt))).getLsbD n =
      if n = buttonBit bt then b else (s.byteAt (byteAddr s.target (buttonOffset bt))).getLsbD n) ∧
    SameOutside s t (byteAddr s.target (buttonOffset bt)) 1

theorem State.afterSetb_writesButton (s : State) (bt : Button) (b : Bool) :
    WritesButton bt b s (s.afterSetb bt b) := by
  obtain ⟨-, -, hbits, hsame, hcontrol, -⟩ := maskedBitWriteChangesOneBit s s.target (buttonOffset bt) (buttonBit bt) b
    (Nat.le_of_lt_succ (buttonOffset_lt bt))
  rw [State.afterSetb, buttonMask_eq_twoPow]
  exact ⟨rfl, hcontrol, hbits, hsame⟩

theorem exec_setButton_writes (bt : Button) (s : State) (b : Bool) :
    ∃ t, exec (setButton bt b) s = .next t ∧ WritesButton bt b s t :=
  ⟨_, exec_setButton bt b s, s.afterSetb_writesButton bt b⟩

/-- The row of a `SETB` command in the tables of 43_buttons.md: the command, its word for `b = 0` and its bit. -/
def setButtonRow (bt : Button) : (Bool → Instr) × Nat × Nat :=
  (setButton bt, (opcode (setButton bt false)).toNat, buttonBit bt)

/-- Settles O34: a row of the table is `BtnWrite` of a button of byte 12. -/
theorem setFaceButtonsWriteTheirBit : Obligations.SetFaceButtonsWriteTheirBit := fun p hp => by
  obtain ⟨bt, hbt, rfl⟩ := List.mem_map.1 (show p ∈ faceButtons.map setButtonRow from hp)
  rw [← buttonOffset_of_face bt hbt]
  exact ⟨boolFormat_setButton bt, exec_setButton_writes bt⟩

/-- Settles O35: a row of the table is `BtnWrite` of a button of byte 13. -/
theorem setSecondaryButtonsWriteTheirBit : Obligations.SetSecondaryButtonsWriteTheirBit := fun p hp => by
  obtain ⟨bt, hbt, rfl⟩ := List.mem_map.1 (show p ∈ secondaryButtons.map setButtonRow from hp)
  rw [← buttonOffset_of_secondary bt hbt]
  exact ⟨boolFormat_setButton bt, exec_setButton_writes bt⟩

/-! ## The buttons and the D-pad of one record are apart -/

variable {t : State} {p q : Button} {b : Bool}

/-- A `SETB` leaves every byte of the record but the button's own. -/
theorem WritesButton.ld8_of_ne (h : WritesButton p b s t) {k : Nat} (hk : k ≠ buttonOffset p) :
    t.ld8 s.target k = s.ld8 s.target k := by
  obtain ⟨-, -, -, hsame⟩ := h
  apply hsame
  simp only [byteAddr]
  omega

theorem WritesButton.btest_same (h : WritesButton p b s t) :
    t.btest s.target (buttonOffset p) (buttonMask p) = b := by
  obtain ⟨-, -, hbits, -⟩ := h
  rw [State.btest, testMask_buttonMask, State.ld8, hbits, if_pos rfl]

/-- The other button has another byte, or another bit of the same byte (R160). -/
theorem WritesButton.btest_of_ne (h : WritesButton p b s t) (hpq : p ≠ q) :
    t.btest s.target (buttonOffset q) (buttonMask q) = s.btest s.target (buttonOffset q) (buttonMask q) := by
  rw [State.btest, State.btest]
  by_cases hoff : buttonOffset q = buttonOffset p
  · have hbit : (buttonBit q : Nat) ≠ buttonBit p := fun hbit =>
      hpq (button_eq_of_offset_bit hoff (Fin.ext hbit)).symm
    obtain ⟨-, -, hbits, -⟩ := h
    rw [testMask_buttonMask, testMask_buttonMask, hoff, State.ld8, hbits, if_neg hbit, State.ld8]
  · rw [h.ld8_of_ne hoff]

/-- Settles O36: `SETB` writes one bit of the record, which is no other button's and not in the D-pad's byte. -/
theorem buttonLanesAreIndependent : Obligations.ButtonLanesAreIndependent := fun s t p q b hexec => by
  obtain rfl : s.afterSetb p b = t := Host.Outcome.next.inj ((exec_setButton p b s).symm.trans hexec)
  have h := s.afterSetb_writesButton p b
  refine ⟨h.btest_same, ?_, h.btest_of_ne⟩
  rw [State.nibrd, State.nibrd, h.ld8_of_ne (buttonOffset_ne_dpad p).symm]

end Sys2Proof.Machine
end

section
/-! PROOFS. The law of the words of format `N` (R58, R61), beside those of formats `Z`, `S` and `B`. -/

namespace Sys2Proof

open Sys2Proof.Machine

/-- Format `N` (R58, R61): the immediate that is a member's code is legal. -/
theorem wordSpells_of_formatN {op : Opcode} {f : Dpad → Instr} (hop : op ≠ 0xC1#8)
    (h : ∀ imm, decodeOp op imm = formatN f imm) (d : Dpad) : WordSpells (256 * dpadCode d + op.toNat) (f d) :=
  wordSpells_of_decodeOp hop (by rw [h, formatN_dpadCode])

/-- Format `N` (R58, R63 item 4): an immediate that is no member's code is illegal. -/
theorem decodeCmd_error_of_formatN {op : Opcode} {f : Dpad → Instr} (hop : op ≠ 0xC1#8)
    (h : ∀ imm, decodeOp op imm = formatN f imm) {imm : Nat} (hlo : 9 ≤ imm) (hcode : imm ≤ 14 ∨ 16 ≤ imm)
    (hhi : imm < 16777216) (ws : List Word) :
    ∃ e, (decodeCmd (BitVec.ofNat 32 (256 * imm + op.toNat)) ws).1 = .error e := by
  have himm : (BitVec.ofNat 24 imm).toNat = imm :=
    (BitVec.toNat_ofNat _ _).trans (Nat.mod_eq_of_lt hhi)
  rw [ofNat_eq_mkWord, decodeCmd_of_not_header (by rwa [opOf_mkWord]), decodeOne, opOf_mkWord, immOf_mkWord, h]
  obtain ⟨hlt, hmember, -⟩ | ⟨-, herror⟩ := formatN_cases f (BitVec.ofNat 24 imm)
  · omega
  · exact herror

end Sys2Proof
end

section
/-! PROOFS. The statements of 44_dpad.md (R170 to R172): the code table, what GETDP answers, and what SETDP writes. -/

namespace Sys2Proof.Machine

variable {s : State} {d : Dpad}

/-! ## The code table -/

theorem dpadCode_injective : Function.Injective dpadCode := fun d e h =>
  Option.some.inj (by rw [← dpadName_dpadCode d, h, dpadName_dpadCode])

/-- Settles O39: the two tables are inverse to each other, and the codes left over are 9 to 14. -/
theorem dpadNameInvertsCode : Obligations.DpadNameInvertsCode :=
  ⟨by decide, dpadName_dpadCode, fun _ _ h => dpadCode_injective h,
    fun _ hc => dpadName_eq_none_iff (Nat.lt_succ_of_le hc), fun _ _ => dpadCode_of_dpadName⟩

/-! ## Reading the D-pad -/

theorem State.nibrd_eq_mod (s : State) (t k : Nat) : s.nibrd t k = (s.byteAt (byteAddr t k)).toNat % 16 :=
  lowNibble_eq_mod _

theorem State.nibrd_lt (s : State) (t k : Nat) : s.nibrd t k < 16 :=
  (s.nibrd_eq_mod t k).trans_lt (Nat.mod_lt _ (by decide))

theorem State.lowNibble_fieldByte_of_not_free {t : Nat} (h : s.readsFree t = false) (k : Nat) :
    lowNibble (s.fieldByte t k) = s.nibrd t k := by
  rw [State.fieldByte_of_not_free h, State.nibrd]

theorem exec_getdp_of_member (h : s.readsFree s.target = false) (hd : dpadName (s.nibrd s.target 14) = some d) :
    exec .getdp s = .next (s.respond .ok (dpadCode d)) := by
  show execGetdp s = _
  rw [execGetdp, State.lowNibble_fieldByte_of_not_free h, hd, State.afterFieldRead_of_not_free h]
  rfl

theorem exec_getdp_of_no_member (h : s.readsFree s.target = false) (hn : dpadName (s.nibrd s.target 14) = none) :
    exec .getdp s = .next (s.respond .formatError 0) := by
  show execGetdp s = _
  rw [execGetdp, State.lowNibble_fieldByte_of_not_free h, hn, State.afterFieldRead_of_not_free h]
  rfl

/-- Settles O37: the low nibble names a member, whose code it is, or it is one of the codes 9 to 14. -/
theorem getDpadAnswersCodeOrFormatError : Obligations.GetDpadAnswersCodeOrFormatError := by
  refine ⟨wordSpells_of_formatZ (op := 0x70#8) (by decide) fun _ => rfl, fun s h => ?_⟩
  rw [← s.nibrd_eq_mod]
  have hnone := dpadName_eq_none_iff (s.nibrd_lt s.target 14)
  cases hd : dpadName (s.nibrd s.target 14) with
  | none => rw [if_pos (hnone.1 hd), exec_getdp_of_no_member h hd]
  | some d =>
    have hcode : ¬(9 ≤ s.nibrd s.target 14 ∧ s.nibrd s.target 14 ≤ 14) := fun hc => by
      cases hd.symm.trans (hnone.2 hc)
    rw [if_neg hcode, exec_getdp_of_member h hd, dpadCode_of_dpadName hd]

/-! ## Writing the D-pad -/

/-- The state after a `SETDP`. -/
def State.afterSetdp (s : State) (d : Dpad) : State :=
  (s.nibwr s.target 14 (dpadCode d)).respond .ok 0

/-- `SETDP`, issued directly (R60, R171): it has no range failure. -/
theorem exec_setdp (d : Dpad) (s : State) : exec (.setdp d) s = .next (s.afterSetdp d) :=
  exec_ofMutator s (.setdp d)

/-- What a `SETDP` does from `s` to `t` (R171): the low nibble of the selected record's byte 14 is the member's code, and
nothing else changed but the response. -/
abbrev WritesDpad (d : Dpad) (s t : State) : Prop :=
  Answered s t .ok 0 ∧ SameControl s t ∧
    (t.byteAt (byteAddr s.target 14)).toNat = (s.byteAt (byteAddr s.target 14)).toNat / 16 * 16 + dpadCode d ∧
    SameOutside s t (byteAddr s.target 14) 1

theorem State.afterSetdp_writesDpad (s : State) (d : Dpad) : WritesDpad d s (s.afterSetdp d) := by
  obtain ⟨-, hbyte, -, hsame, hcontrol, -⟩ := nibbleWriteKeepsHighNibble s s.target 14 (dpadCode d) (by decide)
    (Nat.le_of_lt_succ (dpadCode_lt d))
  exact ⟨rfl, hcontrol, hbyte, hsame⟩

/-- `GETDP` issued after `SETDP` reads the nibble that was written. -/
theorem exec_getdp_afterSetdp (s : State) (d : Dpad)
    (h : (s.afterSetdp d).readsFree (s.afterSetdp d).target = false) :
    exec .getdp (s.afterSetdp d) = .next ((s.afterSetdp d).respond .ok (dpadCode d)) := by
  obtain ⟨-, -, hnibble, -⟩ := nibbleWriteKeepsHighNibble s s.target 14 (dpadCode d) (by decide)
    (Nat.le_of_lt_succ (dpadCode_lt d))
  have hread : (s.afterSetdp d).nibrd (s.afterSetdp d).target 14 = dpadCode d := hnibble
  exact exec_getdp_of_member h (by rw [hread, dpadName_dpadCode])

/-- The ten members, in the order of R53. -/
def dpadMembers : List Dpad :=
  [.notPressed, .up, .upRight, .right, .downRight, .down, .downLeft, .left, .upLeft, .padding]

/-- Settles O38: a row of the table is `NIBWR` of a member's code, and the immediates left over have no member. -/
theorem setDpadWritesLowNibble : Obligations.SetDpadWritesLowNibble := by
  refine ⟨fun imm hlo hcode hhi ws =>
    decodeCmd_error_of_formatN (op := 0x71#8) (by decide) (fun _ => rfl) hlo hcode hhi ws, fun p hp => ?_⟩
  obtain ⟨d, -, rfl⟩ := List.mem_map.1 (show p ∈ dpadMembers.map fun d => (d, dpadCode d) from hp)
  refine ⟨wordSpells_of_formatN (op := 0x71#8) (by decide) (fun _ => rfl) d, fun s => ?_⟩
  obtain ⟨hresp, hcontrol, hbyte, hsame⟩ := s.afterSetdp_writesDpad d
  exact ⟨_, exec_setdp d s, hresp, hcontrol, hbyte, hsame, exec_getdp_afterSetdp s d⟩

end Sys2Proof.Machine
end

section
/-! PROOFS. The statements of 45_padding_record.md (R180 to R183): which records are padding, what the commands on a whole record write to it or to the sink, and that a record survives the way through a stream. -/

namespace Sys2Proof.Machine

variable {s t : State} {b : Bool} {sr : Source} {out : List Byte} {k : Nat}

/-! ## The bytes of a whole record -/

/-- Byte `k` of a record that was stored is byte `k` of the run stored (R31). -/
theorem State.byteAt_setRecord_byteAddr (s : State) (r : Nat) {bs : List Byte} (hk : k < bs.length) :
    (s.setRecord r bs).byteAt (byteAddr r k) = bs.getD k 0 := by
  have haddr : byteAddr r k = 16 * r + k := rfl
  rw [State.byteAt_setRecord, if_pos (by omega), haddr, Nat.add_sub_cancel_left]

theorem State.recordBytes_eq (s : State) (r : Nat) :
    s.recordBytes r = (List.range 16).map fun k => s.byteAt (byteAddr r k) := s.bytesAt_eq _ 16

theorem State.getD_recordBytes (s : State) (r : Nat) (hk : k < 16) :
    (s.recordBytes r).getD k 0 = s.byteAt (byteAddr r k) := by
  rw [State.recordBytes_eq, List.getD_eq_getElem?_getD, List.getElem?_map, List.getElem?_range hk]
  rfl

/-! ## Telling padding -/

/-- `ISPAD` answers the bit of R18's predicate (R180). -/
theorem exec_ispad_of_isPadding (h : s.isPadding s.target = b) :
    exec .ispad s = .next (s.respond .ok (if b then 1 else 0)) := by
  show execIspad s = _
  rw [execIspad, h]
  cases b <;> rfl

/-- Settles O42: a record is padding exactly when no byte of it differs from 0xFF. -/
theorem ispadTellsPadding : Obligations.IspadTellsPadding := by
  refine ⟨wordSpells_of_formatZ (op := 0x80#8) (by decide) fun _ => rfl,
    fun s => ⟨fun h => ?_, fun ⟨k, hk, hne⟩ => ?_⟩⟩
  · exact exec_ispad_of_isPadding (b := true) ((s.isPadding_iff _).2 h)
  · exact exec_ispad_of_isPadding (b := false) (Bool.eq_false_iff.2 fun hp => hne ((s.isPadding_iff _).1 hp k hk))

/-! ## Filling or resetting a record -/

/-- The sixteen bytes that `SETPAD b` writes (R181). -/
def setpadRecord (b : Bool) : List Byte := if b then paddingRecord else activeReset

theorem setpadRecord_length (b : Bool) : (setpadRecord b).length = 16 := by cases b <;> rfl

theorem getD_setpadRecord (b : Bool) (hk : k < 16) :
    (setpadRecord b).getD k 0 = if b then 0xFF#8 else activeReset.getD k 0 := by
  cases b with
  | true => exact List.getD_replicate _ hk
  | false => rfl

/-- The state after a `SETPAD`. -/
def State.afterSetpad (s : State) (b : Bool) : State := (s.setRecord s.target (setpadRecord b)).respond .ok 0

/-- `SETPAD`, issued directly (R60, R181): it has no range failure. -/
theorem exec_setpad (b : Bool) (s : State) : exec (.setpad b) s = .next (s.afterSetpad b) :=
  exec_ofMutator s (.setpad b)

theorem State.byteAt_afterSetpad (s : State) (b : Bool) (hk : k < 16) :
    (s.afterSetpad b).byteAt (byteAddr s.target k) = if b then 0xFF#8 else activeReset.getD k 0 := by
  rw [State.afterSetpad, State.byteAt_respond,
    State.byteAt_setRecord_byteAddr _ _ (hk.trans_eq (setpadRecord_length b).symm), getD_setpadRecord b hk]

/-- A reset record is not padding: its terminator is not 0xFF. -/
theorem State.isPadding_afterSetpad (s : State) (b : Bool) :
    (s.afterSetpad b).isPadding (s.afterSetpad b).target = b := by
  cases b with
  | true => exact (State.isPadding_iff _ _).2 fun k hk => s.byteAt_afterSetpad true hk
  | false =>
    refine Bool.eq_false_iff.2 fun hp => ?_
    have hterm : 0x02#8 = 0xFF#8 :=
      (s.byteAt_afterSetpad false (k := 15) (by decide)).symm.trans ((State.isPadding_iff _ _).1 hp 15 (by decide))
    exact absurd hterm (by decide)

/-- Every axis of a reset record holds the bias, 0x0800 (R181). -/
theorem joyGet_afterSetpad_false (s : State) (ax : Axis) :
    joyGet ax (s.afterSetpad false) = .next ((s.afterSetpad false).respond .ok 0) := by
  have hfree : (s.afterSetpad false).readsFree (s.afterSetpad false).target = false := by
    rw [State.readsFree, s.isPadding_afterSetpad, Bool.and_false]
  have hk := axisOffset_succ_lt ax
  have htarget : (s.afterSetpad false).target = s.target := rfl
  rw [joyGet_of_not_free hfree, htarget, s.byteAt_afterSetpad false (Nat.lt_of_succ_lt hk),
    s.byteAt_afterSetpad false hk]
  cases ax <;> rfl

/-- Settles O43: the record stored is all 0xFF or `ACTIVE_RESET`, and the reads issued next see its bytes. -/
theorem setpadFillsOrResetsRecord : Obligations.SetpadFillsOrResetsRecord := by
  refine ⟨boolFormat_of_formatB (op := 0x81#8) (by decide) fun _ => rfl, fun s b => ?_⟩
  refine ⟨_, exec_setpad b s, rfl, s.sameControl_setBytes (byteAddr s.target 0) (setpadRecord b),
    s.sameOutside_setRecord _ (setpadRecord_length b).le, fun k hk => s.byteAt_afterSetpad b hk,
    exec_ispad_of_isPadding (s.isPadding_afterSetpad b), ?_⟩
  rintro rfl i hi
  obtain ⟨ax, e⟩ := exec_joystick_getter hi
  exact e ▸ joyGet_afterSetpad_false s ax

/-! ## Emitting a record -/

/-- `ENC` with a sink that does not fail (R182). -/
theorem exec_enc_of_sink (hfail : s.params.sinkFails = false) (hsnk : s.snk = some out) :
    exec .enc s = .next ((s.setSnk (out ++ s.recordBytes s.target)).respond .ok 0) := by
  show sinkWrite (s.recordBytes s.target) s = _
  rw [sinkWrite, hfail, hsnk]
  rfl

/-- Settles O44: the bytes emitted are those of the record, in the order of their addresses. -/
theorem encodeEmitsRecordBytes : Obligations.EncodeEmitsRecordBytes := by
  refine ⟨wordSpells_of_formatZ (op := 0x82#8) (by decide) fun _ => rfl, fun s out hfail hsnk => ?_⟩
  rw [← s.recordBytes_eq]
  exact exec_enc_of_sink hfail hsnk

/-- An `ENC` that completes has appended the record to the sink. -/
theorem exec_enc_appends (h : exec .enc s = .next t) (hsnk : s.snk = some out) :
    t.snk = some (out ++ s.recordBytes s.target) := by
  obtain ⟨-, e⟩ | ⟨-, -, e⟩ | ⟨o, -, ho, e⟩ := sinkWrite_cases s (s.recordBytes s.target)
  · cases e.symm.trans h
  · cases e.symm.trans h
  · obtain rfl : o = out := Option.some.inj (ho.symm.trans hsnk)
    cases e.symm.trans h
    rfl

/-! ## Loading a record -/

theorem Source.getD_next (sr : Source) {n : Nat} (hk : k < n) :
    (sr.next n).getD k 0 = sr.bytes.getD (sr.pos + k) 0 := by
  rw [Source.next, List.getD_eq_getElem?_getD, List.getElem?_take_of_lt hk, List.getElem?_drop,
    List.getD_eq_getElem?_getD]

theorem Source.next_length_of_avail {n : Nat} (h : n ≤ sr.avail) : (sr.next n).length = n := by
  rw [Source.next_length, Nat.min_eq_left h]

/-- The state after a `DEC` that finds sixteen unread bytes. -/
def State.afterDec (s : State) (sr : Source) : State :=
  ((s.setRecord s.target (sr.next 16)).setSrc (sr.advance 16)).respond .ok 0

theorem exec_dec_of_avail (hsrc : s.src = some sr) (h : 16 ≤ sr.avail) : exec .dec s = .next (s.afterDec sr) := by
  show execDec s = _
  rw [execDec, hsrc]
  exact if_neg (Nat.not_lt.2 h)

theorem exec_dec_of_short (hsrc : s.src = some sr) (h : sr.avail < 16) :
    exec .dec s = .next ((shortRead s.target sr s).respond .formatError 0) := by
  show execDec s = _
  rw [execDec, hsrc]
  exact if_pos h

theorem State.byteAt_afterDec (s : State) (h : 16 ≤ sr.avail) (hk : k < 16) :
    (s.afterDec sr).byteAt (byteAddr s.target k) = (sr.next 16).getD k 0 :=
  s.byteAt_setRecord_byteAddr _ (hk.trans_eq (Source.next_length_of_avail h).symm)

/-- Settles O45: the run stored is the next sixteen bytes, and a short read leaves free only the record and a position
inside the source. -/
theorem decodeLoadsRecordOrFails : Obligations.DecodeLoadsRecordOrFails := by
  refine ⟨wordSpells_of_formatZ (op := 0x83#8) (by decide) fun _ => rfl,
    fun s sr hsrc => ⟨fun h => ?_, fun h => ?_⟩⟩
  · refine ⟨_, exec_dec_of_avail hsrc h, rfl, fun k hk => ?_,
      s.sameOutside_setRecord _ (Source.next_length_of_avail h).le, rfl,
      (s.setSrc (sr.advance 16)).sameControl_setBytes (byteAddr s.target 0) (sr.next 16)⟩
    rw [s.byteAt_afterDec h hk, sr.getD_next hk]
  · obtain ⟨-, hlo, hhi⟩ := shortReadSource_bounds sr s.draws
    exact ⟨_, _, exec_dec_of_short hsrc h, rfl, s.sameOutside_setRecord _ (freeRecord_length _).le, hlo, hhi,
      rfl, rfl, rfl, rfl, rfl, rfl⟩

/-! ## There and back -/

/-- Settles O46: the sixteen bytes emitted are the sixteen bytes loaded. -/
theorem encodeThenDecodeRestores : Obligations.EncodeThenDecodeRestores :=
    fun s t u out bs sr henc hsnk ht hsrc hnext => by
  have hbs : sr.next 16 = s.recordBytes s.target := by
    have happ := ht.symm.trans (exec_enc_appends henc hsnk)
    exact hnext.trans (List.append_cancel_left (Option.some.inj happ))
  have havail : 16 ≤ sr.avail := by
    have hlen := sr.next_length 16
    rw [hbs, State.recordBytes_length] at hlen
    omega
  refine ⟨_, exec_dec_of_avail hsrc havail, rfl, fun k hk => ?_⟩
  rw [u.byteAt_afterDec havail hk, hbs, s.getD_recordBytes _ hk]

end Sys2Proof.Machine
end

section
/-! PROOFS. The statements of 46_container.md on `WNEXT` (R201, R207): which groups complete, what a group leaves in its slot, and how many more groups fit. -/

namespace Sys2Proof.Machine

variable {s u : State} {m : Mutator} {ms : List Mutator}

/-! ## One mutator -/

/-- A mutator refuses exactly the operands outside its field's domain (R100, R120, R231). -/
theorem mutate_eq_error_iff (t : Nat) (m : Mutator) (s : State) :
    mutate t m s = .error .rangeError ↔ mutatorInDomain m = false := by
  cases m with
  | setj ax v =>
    simp only [mutate, joyWrite, joyMin, joyMax, mutatorInDomain, decide_eq_false_iff_not]
    split <;> simp <;> omega
  | sett tr p =>
    simp only [mutate, trigWrite, trigMin, trigMax, mutatorInDomain, decide_eq_false_iff_not]
    split <;> simp <;> omega
  | setb bt b => exact ⟨nofun, nofun⟩
  | setdp d => exact ⟨nofun, nofun⟩
  | setpad b => exact ⟨nofun, nofun⟩

theorem mutate_of_inDomain (h : mutatorInDomain m = true) (t : Nat) (s : State) : ∃ u, mutate t m s = .ok u := by
  obtain e | ⟨x, bs, e, -⟩ := mutate_cases s t m
  · cases h.symm.trans ((mutate_eq_error_iff t m s).1 e)
  · exact ⟨_, e⟩

/-- The terminator of record `t` (R11, R18). -/
abbrev State.Terminated (s : State) (t : Nat) : Prop := s.byteAt (byteAddr t 15) = 0x02#8

/-- Every mutator but `SETPAD 1` leaves the terminator standing: no other field reaches byte 15 (R11, R181). -/
theorem mutate_keeps_terminator {t : Nat} (hm : m ≠ .setpad true) (hs : s.Terminated t) (h : mutate t m s = .ok u) :
    u.Terminated t := by
  have hst8 {k : Nat} (hk : k < 15) (b : Byte) : (s.st8 t k b).Terminated t := by
    rw [State.Terminated, State.byteAt_st8, if_neg (by simp only [byteAddr]; omega), hs]
  cases m with
  | setj ax v =>
    have hk : axisOffset ax < 14 := by cases ax <;> decide
    simp only [mutate, joyWrite] at h
    split at h
    · cases h
    · cases h
      rw [State.Terminated, State.byteAt_st16le, if_neg (by simp only [byteAddr]; omega),
        if_neg (by simp only [byteAddr]; omega), hs]
  | sett tr p =>
    simp only [mutate, trigWrite] at h
    split at h
    · cases h
    · cases h
      exact hst8 (by cases tr <;> decide) _
  | setb bt b =>
    cases h
    exact hst8 (by cases bt <;> decide) _
  | setdp d =>
    cases h
    exact hst8 (by decide) _
  | setpad b =>
    cases b with
    | true => exact absurd rfl hm
    | false =>
      cases h
      exact s.byteAt_setRecord_byteAddr t (bs := activeReset) (k := 15) (by decide)

/-! ## The mutators of a group -/

/-- A group runs to its end when its first mutator completes and the others run to theirs. -/
theorem mutateAll_cons_eq_none_iff {t : Nat} :
    mutateAll t (m :: ms) s = (u, none) ↔ ∃ v, mutate t m s = .ok v ∧ mutateAll t ms v = (u, none) := by
  cases h : mutate t m s <;> simp [mutateAll, h]

theorem mutateAll_append {t : Nat} (h : mutateAll t ms s = (u, none)) (ns : List Mutator) :
    mutateAll t (ms ++ ns) s = mutateAll t ns u := by
  induction ms generalizing s with
  | nil =>
    cases h
    rfl
  | cons m ms ih =>
    obtain ⟨v, e, hv⟩ := mutateAll_cons_eq_none_iff.1 h
    rw [List.cons_append, mutateAll, e]
    exact ih hv

/-- A group with every operand in its domain runs to its end. -/
theorem mutateAll_of_inDomain (h : ms.all mutatorInDomain = true) (t : Nat) (s : State) :
    ∃ u, mutateAll t ms s = (u, none) := by
  induction ms generalizing s with
  | nil => exact ⟨s, rfl⟩
  | cons m ms ih =>
    rw [List.all_cons, Bool.and_eq_true] at h
    obtain ⟨hm, hms⟩ := h
    obtain ⟨v, e⟩ := mutate_of_inDomain hm t s
    obtain ⟨u, hu⟩ := ih hms v
    exact ⟨u, mutateAll_cons_eq_none_iff.2 ⟨v, e, hu⟩⟩

theorem mutateAll_keeps_terminator {t : Nat} (hms : .setpad true ∉ ms) (hs : s.Terminated t)
    (h : mutateAll t ms s = (u, none)) : u.Terminated t := by
  induction ms generalizing s with
  | nil =>
    cases h
    exact hs
  | cons m ms ih =>
    rw [List.mem_cons, not_or] at hms
    obtain ⟨hm, hms⟩ := hms
    obtain ⟨v, e, hv⟩ := mutateAll_cons_eq_none_iff.1 h
    exact ih hms (mutate_keeps_terminator (Ne.symm hm) hs e) hv

/-! ## One WNEXT -/

/-- A `WNEXT` below capacity whose operands are in their domains: the slot's memory, and the answer (R201). -/
theorem exec_wnext_of_inDomain (hcur : s.cur < 65536) (h : ms.all mutatorInDomain = true) :
    ∃ fm, writeSlot ms s = ({ s with fm := fm }, none) ∧ SameOutside s { s with fm := fm } (byteAddr s.cur 0) 16 ∧
      exec (.wnext ms) s = .next ((State.setCur { s with fm := fm } (s.cur + 1)).respond .ok 0) := by
  obtain ⟨hcap, -⟩ | ⟨habove, -⟩ | ⟨fm, -, -, hout, ⟨hslot, e⟩ | ⟨hslot, -⟩⟩ := execWnext_cases s ms
  · omega
  · omega
  · exact ⟨fm, hslot, hout, e⟩
  · obtain ⟨u, hu⟩ := mutateAll_of_inDomain h s.cur (s.setRecord s.cur activeReset)
    cases hu.symm.trans hslot

/-- Settles O48: no mutator refuses its operand, and none but `SETPAD 1` reaches the terminator that step 3 stored. -/
theorem wnextCompletesAndAdvances : Obligations.WnextCompletesAndAdvances := fun s ms hcur h => by
  obtain ⟨fm, hslot, hout, e⟩ := exec_wnext_of_inDomain hcur h
  have hreset : (s.setRecord s.cur activeReset).Terminated s.cur := s.byteAt_setRecord_byteAddr s.cur (by decide)
  refine ⟨_, e, rfl, rfl, ⟨rfl, rfl, rfl, rfl, rfl, rfl, rfl⟩, hout, fun hpad => ?_⟩
  have hterm : State.Terminated { s with fm := fm } s.cur := mutateAll_keeps_terminator hpad hreset hslot
  exact hterm

/-- Settles O51: the group before the refused mutator runs as on its own, and the refusal keeps what it left. -/
theorem wnextStopsAtFirstRangeError : Obligations.WnextStopsAtFirstRangeError := fun s t ns after m hcur h hm ht => by
  obtain ⟨fm, hslot, hout, e⟩ := exec_wnext_of_inDomain hcur h
  cases e.symm.trans ht
  have hstop : writeSlot (ns ++ m :: after) s = ({ s with fm := fm }, some .rangeError) := by
    rw [writeSlot, mutateAll_append hslot, mutateAll, (mutate_eq_error_iff _ _ _).2 hm]
  refine ⟨State.respond { s with fm := fm } .rangeError 0, ?_, rfl, ⟨rfl, rfl, rfl, rfl, rfl, rfl, rfl⟩, hout, rfl⟩
  show execWnext _ s = _
  rw [execWnext, if_neg (Nat.ne_of_lt hcur), if_neg (Nat.lt_asymm hcur), hstop]
  rfl

/-! ## The mutators issued directly -/

/-- The same block and streams, with another record selected and other responses given. -/
def State.withHost (s : State) (w : BitVec 16) (rs : List Response) : State := { s with wsel := w, resps := rs }

@[simp] theorem State.target_withHost (s : State) (w : BitVec 16) (rs : List Response) :
    (s.withHost w rs).target = w.toNat := rfl

/-- No mutator reads WSEL or the responses: its record is given (R60). -/
theorem mutate_withHost (t : Nat) (m : Mutator) (s : State) (w : BitVec 16) (rs : List Response) :
    mutate t m (s.withHost w rs) = (mutate t m s).map fun u => u.withHost w rs := by
  cases m with
  | setj ax v =>
    simp only [mutate, joyWrite]
    split <;> rfl
  | sett tr p =>
    simp only [mutate, trigWrite]
    split <;> rfl
  | setb bt b => rfl
  | setdp d => rfl
  | setpad b => rfl

/-- Mutators issued one by one leave what a group of them leaves in the selected record (R60). -/
theorem execAll_ofMutator {t : Nat} (h : mutateAll t ms s = (u, none)) {w : BitVec 16} (hw : w.toNat = t)
    (rs : List Response) :
    ∃ rs', execAll (ms.map ofMutator) (s.withHost w rs) = .next (u.withHost w rs') := by
  induction ms generalizing s rs with
  | nil =>
    cases h
    exact ⟨rs, rfl⟩
  | cons m ms ih =>
    obtain ⟨v, e, hv⟩ := mutateAll_cons_eq_none_iff.1 h
    have hm : exec (ofMutator m) (s.withHost w rs) = .next (v.withHost w (rs ++ [⟨.ok, 0⟩])) := by
      rw [exec_ofMutator, mutate_withHost, State.target_withHost, hw, e]
      rfl
    rw [List.map_cons, execAll_cons, hm, andThen_next]
    exact ih hv _

/-- Settles O49: the direct commands run the same mutators from the same reset record, and differ only in WSEL and the
responses. -/
theorem wnextIsResetThenMutators : Obligations.WnextIsResetThenMutators := fun s ms hcur h => by
  obtain ⟨fm, hslot, -, e⟩ := exec_wnext_of_inDomain hcur h
  have htarget : (BitVec.ofNat 16 s.cur).toNat = s.cur := Nat.mod_eq_of_lt hcur
  have hreset : (s.setWsel (BitVec.ofNat 16 s.cur)).afterSetpad false =
      (s.setRecord s.cur activeReset).withHost (BitVec.ofNat 16 s.cur) (s.resps ++ [⟨.ok, 0⟩]) := by
    rw [State.afterSetpad, State.target, State.setWsel_wsel, htarget]
    rfl
  obtain ⟨rs, hrs⟩ := execAll_ofMutator hslot htarget (s.resps ++ [⟨.ok, 0⟩])
  refine ⟨_, State.withHost { s with fm := fm } (BitVec.ofNat 16 s.cur) rs, e, ?_, rfl, rfl⟩
  rw [execAll_cons, exec_setpad, andThen_next, hreset, hrs]

/-! ## A list of groups -/

/-- Settles O52: each group that fits completes and raises CUR by one, by induction on the list. -/
theorem containerCapacity : Obligations.ContainerCapacity := fun s gs hgs hfit => by
  induction gs generalizing s with
  | nil =>
    refine ⟨s, rfl, rfl, (List.append_nil _).symm, rfl, fun _ _ => rfl, fun hfull ms => ?_⟩
    obtain ⟨-, e⟩ | ⟨habove, -⟩ | ⟨fm, hbelow, -⟩ := execWnext_cases s ms
    · exact e
    · omega
    · simp only [List.length_nil] at hfull
      omega
  | cons ms gs ih =>
    rw [List.length_cons] at hfit ⊢
    obtain ⟨t, ht, hresp, hcur, ⟨-, hwsel, -⟩, hout, -⟩ :=
      wnextCompletesAndAdvances s ms (by omega) (hgs ms List.mem_cons_self)
    obtain ⟨u, hu, hcur', hresps', hwsel', hout', hcap⟩ :=
      ih t (fun ns hns => hgs ns (List.mem_cons_of_mem ms hns)) (by omega)
    refine ⟨u, ?_, by omega, ?_, hwsel'.trans hwsel, fun x hx => ?_, fun hfull => hcap (by omega)⟩
    · rw [List.map_cons, execAll_cons, ht, andThen_next, hu]
    · rw [hresps', hresp, List.append_assoc, List.replicate_succ, List.singleton_append]
    · rw [hout' x (by omega), hout x (by simp only [byteAddr, wordBytes]; omega)]

end Sys2Proof.Machine
end

section
/-! PROOFS. The statements of 46_container.md on `CINIT`, `GETW` and `FINISH` (R200, R202, R203): the memory after construct, which record is selected, and which records are padded. -/

namespace Sys2Proof.Machine

variable {s : State}

/-! ## Construct -/

theorem getD_initRecord (iw : Config.InitWord) {k : Nat} (hk : k < 16) :
    (initRecord iw).getD k 0 = if iw = .activeCentred
      then ([0x00, 0x08, 0x00, 0x08, 0x00, 0x08, 0x00, 0x08, 0, 0, 0, 0, 0, 0, 0, 0x02] : List Byte).getD k 0
      else if k = 15 then 0x02#8 else 0#8 := by
  cases iw with
  | activeCentred => rfl
  | activeUncentred =>
    revert k
    decide

/-- Settles O47: after construct no cell is listed, so every byte reads as that of `INIT_WORD`. -/
theorem cinitIsReset : Obligations.CinitIsReset :=
  ⟨wordSpells_of_formatZ (op := 0xC0#8) (by decide) fun _ => rfl, fun s =>
    ⟨s.construct.respond .ok 0, rfl, rfl, rfl, rfl, ⟨rfl, rfl, rfl, rfl, rfl, rfl, rfl⟩,
      fun x _ => getD_initRecord _ (Nat.mod_lt x (by decide)), rfl, rfl, rfl⟩⟩

/-! ## Selecting a record -/

/-- An index in range is held by WSEL without loss (R14, R203). -/
theorem toNat_ofInt_index {i : Int} (h0 : 0 ≤ i) (h1 : i ≤ 65535) : ((BitVec.ofInt 16 i).toNat : Int) = i := by
  rw [BitVec.toNat_ofInt]
  omega

/-- Settles O55: the index check passes exactly the indices that WSEL holds. -/
theorem getwSelectsOrIndexError : Obligations.GetwSelectsOrIndexError := by
  refine ⟨signedFormat_of_formatS (op := 0xC3#8) (by decide) fun _ => rfl, fun s i => ?_⟩
  obtain ⟨h, e⟩ | ⟨h0, h1, e⟩ := execGetw_cases s i
  · exact ⟨fun h0 h1 => by omega, fun _ => e⟩
  · have hj := toNat_ofInt_index h0 h1
    exact ⟨fun _ _ => ⟨_, hj, e, hj⟩, fun h => by omega⟩

/-! ## Padding from the cursor -/

/-- The state after a `FINISH`. -/
def State.afterFinish (s : State) : State := (s.setRecord s.cur (padFrom s.cur)).respond .ok 0

theorem exec_finish (s : State) : exec .finish s = .next s.afterFinish := rfl

theorem State.byteAt_afterFinish (s : State) (x : Nat) :
    s.afterFinish.byteAt x = if 16 * s.cur ≤ x ∧ x < 1048576 then 0xFF#8 else s.byteAt x := by
  rw [State.afterFinish, State.byteAt_respond, State.byteAt_setRecord, padFrom_length]
  by_cases h : 16 * s.cur ≤ x ∧ x < 1048576
  · rw [if_pos h, if_pos (by omega)]
    exact List.getD_replicate _ (show x - 16 * s.cur < 16 * (65536 - s.cur) by omega)
  · rw [if_neg h, if_neg (by omega)]

/-- The cursor stays, so a second `FINISH` pads the same bytes again. -/
theorem State.sameMemory_afterFinish (s : State) : SameMemory s.afterFinish s.afterFinish.afterFinish := fun x => by
  have hcur : s.afterFinish.cur = s.cur := rfl
  rw [State.byteAt_afterFinish s.afterFinish, State.byteAt_afterFinish s, hcur]
  split_ifs <;> rfl

/-- Settles O53: one run of 0xFF is stored from the cursor's record to the end of the frame memory. -/
theorem finishPadsFromCursor : Obligations.FinishPadsFromCursor :=
  ⟨wordSpells_of_formatZ (op := 0xC2#8) (by decide) fun _ => rfl, fun s =>
    ⟨_, exec_finish s, rfl, s.sameControl_setBytes (byteAddr s.cur 0) (padFrom s.cur), s.byteAt_afterFinish,
      _, exec_finish _, s.sameMemory_afterFinish⟩⟩

/-! ## Two runs of bytes, one after the other -/

theorem State.setBytes_nil (s : State) (x : Nat) : s.setBytes x [] = s := by
  have hfm : Memory.write s.params.initWord s.fm x [] = s.fm := List.takeWhile_append_dropWhile
  rw [State.setBytes, hfm]

/-- Two runs stored one after the other at adjoining addresses are one run: canonical memories that read alike are
equal. -/
theorem State.setBytes_append (h : s.Inv) {x : Nat} {bs cs : List Byte} (hx : x + bs.length + cs.length ≤ 1048576) :
    (s.setBytes x bs).setBytes (x + bs.length) cs = s.setBytes x (bs ++ cs) := by
  have hlen : x + (bs ++ cs).length ≤ 1048576 := by rw [List.length_append]; omega
  have hwf : ((s.setBytes x bs).setBytes (x + bs.length) cs).Inv := (h.setBytes (by omega)).setBytes hx
  have hread : SameMemory (s.setBytes x (bs ++ cs)) ((s.setBytes x bs).setBytes (x + bs.length) cs) := fun y => by
    rw [State.byteAt_setBytes, State.byteAt_setBytes, State.byteAt_setBytes, List.length_append]
    by_cases hlow : y < x + bs.length
    · rw [if_neg (by omega)]
      refine ite_congr (propext (by omega)) (fun hy => ?_) fun _ => rfl
      rw [List.getD_append _ _ _ _ (by omega)]
    · rw [if_neg (by omega : ¬(x ≤ y ∧ y < x + bs.length))]
      refine ite_congr (propext (by omega)) (fun hy => ?_) fun _ => rfl
      rw [List.getD_append_right _ _ _ _ (by omega), Nat.sub_sub]
  have hfm := Memory.ext s.params.initWord hwf.1 (h.setBytes hlen).1 fun y _ => hread y
  exact congrArg (fun fm => { s with fm := fm }) hfm

/-- Records stored one after the other, from record `t` on and then from record `t + n` on, are one run. -/
theorem State.setRecord_append (h : s.Inv) {t n : Nat} {bs cs : List Byte} (hbs : bs.length = 16 * n)
    (hcs : 16 * (t + n) + cs.length ≤ 1048576) :
    (s.setRecord t bs).setRecord (t + n) cs = s.setRecord t (bs ++ cs) := by
  have haddr : byteAddr (t + n) 0 = byteAddr t 0 + bs.length := by simp only [byteAddr, wordBytes, hbs]; omega
  rw [State.setRecord, State.setRecord, haddr]
  exact State.setBytes_append h (by rw [← haddr]; exact hcs)

/-! ## The loop of R202 -/

/-- Padding records one by one stores one run of 0xFF. -/
theorem finishLoop_eq_setRecord (h : s.Inv) {n i : Nat} (hi : i + n ≤ 65536) :
    finishLoop n i s = s.setRecord i (List.replicate (16 * n) pad) := by
  induction n generalizing i s with
  | zero => exact (s.setBytes_nil _).symm
  | succ n ih =>
    have hrec : (s.setRecord i paddingRecord).Inv := h.setRecord (by rw [paddingRecord_length]; omega)
    rw [finishLoop, ih hrec (by omega), State.setRecord_append h (n := 1) paddingRecord_length
      (by rw [List.length_replicate]; omega)]
    have hrun : paddingRecord ++ List.replicate (16 * n) pad = List.replicate (16 * (n + 1)) pad := by
      rw [paddingRecord, List.replicate_append_replicate, wordBytes, Nat.mul_succ, Nat.add_comm]
    rw [hrun]

/-- Settles O54: the run that `FINISH` stores is the run of the loop's records. -/
theorem finishIsRecordLoop : Obligations.FinishIsRecordLoop := fun s hs => by
  have hcur := hs.2.1
  refine ⟨_, exec_finish s, ?_⟩
  rw [finishLoop_eq_setRecord hs (by omega)]
  rfl

end Sys2Proof.Machine
end

section
/-! PROOFS. The statements of 46_container.md on `SER` and `DESER` (R204, R205): the bytes emitted, the records loaded in full or up to a short one, and that the frame memory survives the way through a stream. -/

namespace Sys2Proof.Machine

variable {s t : State} {sr : Source} {out bs : List Byte}

/-! ## Emitting the frame memory -/

/-- A sink write that completes has appended its bytes (R17). -/
theorem sinkWrite_appends (h : sinkWrite bs s = .next t) (hsnk : s.snk = some out) : t.snk = some (out ++ bs) := by
  obtain ⟨-, e⟩ | ⟨-, -, e⟩ | ⟨o, -, ho, e⟩ := sinkWrite_cases s bs
  · cases e.symm.trans h
  · cases e.symm.trans h
  · obtain rfl : o = out := Option.some.inj (ho.symm.trans hsnk)
    cases e.symm.trans h
    rfl

/-- `SER` with a sink that does not fail (R204). -/
theorem exec_ser_of_sink (hfail : s.params.sinkFails = false) (hsnk : s.snk = some out) :
    exec .ser s = .next ((s.setSnk (out ++ s.bytesAt 0 1048576)).respond .ok 0) := by
  show sinkWrite (s.bytesAt 0 1048576) s = _
  rw [sinkWrite, hfail, hsnk]
  rfl

theorem State.getElem?_bytesAt_zero (s : State) {n j : Nat} (hj : j < n) :
    (s.bytesAt 0 n)[j]? = some (s.byteAt j) := by
  rw [State.bytesAt_eq, List.getElem?_map, List.getElem?_range hj, Option.map_some, Nat.zero_add]

/-- Settles O56: the run emitted is the one-pass read of the whole frame memory. -/
theorem serializeEmitsWholeMemory : Obligations.SerializeEmitsWholeMemory :=
  ⟨wordSpells_of_formatZ (op := 0xC4#8) (by decide) fun _ => rfl, fun s _ hfail hsnk =>
    ⟨_, exec_ser_of_sink hfail hsnk, s.bytesAt_length _ _, fun _ hj => s.getElem?_bytesAt_zero hj⟩⟩

/-! ## Loading records -/

/-- The state after the next `n` bytes of the source have been loaded from record 0 on (R205). -/
def State.loaded (s : State) (sr : Source) (n : Nat) : State := (s.setRecord 0 (sr.next n)).setSrc (sr.advance n)

theorem exec_deser_of_avail (hsrc : s.src = some sr) (h : 1048576 ≤ sr.avail) :
    exec .deser s = .next ((s.loaded sr 1048576).respond .ok 0) := by
  obtain ⟨hnone, -⟩ | ⟨sr', n, hsr, hn, hlt, -⟩ | ⟨sr', hsr, -, e⟩ := execDeser_cases s
  · cases hnone.symm.trans hsrc
  · cases hsr.symm.trans hsrc
    omega
  · cases hsr.symm.trans hsrc
    exact e

theorem exec_deser_of_short (hsrc : s.src = some sr) (h : sr.avail < 1048576) {n : Nat} (hn : n = sr.avail / 16) :
    exec .deser s =
      .next ((shortRead n (sr.advance (16 * n)) (s.loaded sr (16 * n))).respond .formatError 0) := by
  obtain ⟨hnone, -⟩ | ⟨sr', n', hsr, hn', -, e⟩ | ⟨sr', hsr, hfull, -⟩ := execDeser_cases s
  · cases hnone.symm.trans hsrc
  · cases hsr.symm.trans hsrc
    cases hn'.trans hn.symm
    exact e
  · cases hsr.symm.trans hsrc
    omega

/-- The bytes loaded, and every byte above them as it was. -/
theorem State.byteAt_loaded (s : State) {n : Nat} (h : n ≤ sr.avail) (x : Nat) :
    (s.loaded sr n).byteAt x = if x < n then sr.bytes.getD (sr.pos + x) 0 else s.byteAt x := by
  rw [State.loaded, State.byteAt_setSrc, State.byteAt_setRecord, Source.next_length_of_avail h]
  refine ite_congr (propext (by omega)) (fun hx => ?_) fun _ => rfl
  exact sr.getD_next hx

/-- A short read leaves every byte outside its record (R183, R205). -/
theorem shortRead_sameOutside (s : State) (r : Nat) (sr : Source) :
    SameOutside s (shortRead r sr s) (byteAddr r 0) 16 := s.sameOutside_setRecord r (freeRecord_length _).le

/-- Settles O57: the whole records are one run of the source's bytes, and a short read touches only the record after
them and the position. -/
theorem deserializeLoadsOrFails : Obligations.DeserializeLoadsOrFails := by
  refine ⟨wordSpells_of_formatZ (op := 0xC5#8) (by decide) fun _ => rfl,
    fun s sr hsrc => ⟨fun h => ?_, fun h => ?_⟩⟩
  · refine ⟨_, exec_deser_of_avail hsrc h, rfl, fun x hx => ?_, fun x hx => ?_, rfl, rfl, rfl, rfl, rfl, rfl, rfl⟩
    · rw [State.byteAt_respond, s.byteAt_loaded h, if_pos hx]
    · rw [State.byteAt_respond, s.byteAt_loaded h, if_neg (Nat.not_lt.2 hx)]
  · generalize hn : sr.avail / 16 = n
    have havail : 16 * n ≤ sr.avail := by omega
    have hout := shortRead_sameOutside (s.loaded sr (16 * n)) n (sr.advance (16 * n))
    obtain ⟨-, hlo, hhi⟩ := shortReadSource_bounds (sr.advance (16 * n)) s.draws
    refine ⟨_, _, exec_deser_of_short hsrc h hn.symm, rfl, fun x hx => ?_, fun x hx => ?_, hlo, hhi.trans ?_,
      rfl, rfl, rfl, rfl, rfl, rfl⟩
    · rw [State.byteAt_respond, hout x (.inl hx), s.byteAt_loaded havail, if_pos hx]
    · rw [State.byteAt_respond, hout x (.inr hx), s.byteAt_loaded havail, if_neg (by omega)]
    · simp only [Source.avail, Source.advance] at havail ⊢
      omega

/-! ## The loop of R205 -/

theorem Source.next_append (sr : Source) (m n : Nat) : sr.next m ++ (sr.advance m).next n = sr.next (m + n) := by
  rw [Source.next, Source.next, Source.next, Source.advance, ← List.drop_drop, List.take_add]

theorem Source.advance_advance (sr : Source) (m n : Nat) : (sr.advance m).advance n = sr.advance (m + n) :=
  congrArg (Source.mk sr.bytes) (Nat.add_assoc _ _ _)

theorem Source.avail_advance (sr : Source) (n : Nat) : (sr.advance n).avail = sr.avail - n :=
  Nat.sub_add_eq _ _ _

/-- As long as whole records are unread, the loop loads them, and goes on from the record after them. -/
theorem deserLoop_load (h : s.Inv) {k : Nat} (ha : 16 * k ≤ sr.avail) (hk : k ≤ 65536) (n : Nat) :
    deserLoop (k + n) 0 sr s = deserLoop n k (sr.advance (16 * k)) (s.setRecord 0 (sr.next (16 * k))) := by
  induction k generalizing n with
  | zero =>
    have hnone : s.setRecord 0 (sr.next (16 * 0)) = s := s.setBytes_nil _
    rw [Nat.zero_add, hnone]
    rfl
  | succ k ih =>
    have hnext : (sr.next (16 * k)).length = 16 * k := Source.next_length_of_avail (by omega)
    have hload := State.setRecord_append (t := 0) h hnext (cs := (sr.advance (16 * k)).next 16)
      (by rw [Source.next_length]; omega)
    rw [Nat.zero_add] at hload
    rw [Nat.add_right_comm, Nat.add_assoc, ih (by omega) (by omega), deserLoop,
      if_neg (by rw [Source.avail_advance]; omega), hload, Source.next_append, Source.advance_advance, Nat.mul_succ]

/-- Settles O58: the loop loads the whole records that the source holds, and then ends or meets the short one. -/
theorem deserializeIsRecordLoop : Obligations.DeserializeIsRecordLoop := fun s sr hs hsrc => by
  by_cases h : 1048576 ≤ sr.avail
  · rw [exec_deser_of_avail hsrc h]
    exact (deserLoop_load hs (k := 65536) h le_rfl 0).symm
  · generalize hn : sr.avail / 16 = n
    obtain ⟨r, hr⟩ : ∃ r, 65536 = n + (r + 1) := ⟨65535 - n, by omega⟩
    rw [exec_deser_of_short hsrc (by omega) hn.symm, hr, deserLoop_load hs (by omega) (by omega), deserLoop,
      if_pos (by rw [Source.avail_advance]; omega)]
    rfl

/-! ## There and back -/

/-- Settles O59: the bytes loaded are those emitted, and canonical memories that read alike are equal. -/
theorem serializeThenDeserializeRestores : Obligations.SerializeThenDeserializeRestores :=
    fun s t u out bs sr hs hu hiw hser hsnk ht hsrc hnext => by
  have hbs : sr.next 1048576 = s.bytesAt 0 1048576 := by
    have happ := ht.symm.trans (sinkWrite_appends hser hsnk)
    exact hnext.trans (List.append_cancel_left (Option.some.inj happ))
  have hlen : (s.bytesAt 0 1048576).length = 1048576 := s.bytesAt_length _ _
  have havail : 1048576 ≤ sr.avail := by
    have hlen' := sr.next_length 1048576
    rw [hbs, hlen] at hlen'
    omega
  have hread {x : Nat} (hx : x < 1048576) : (u.loaded sr 1048576).byteAt x = s.byteAt x := by
    rw [u.byteAt_loaded havail, if_pos hx, ← sr.getD_next hx, hbs, List.getD_eq_getElem?_getD,
      s.getElem?_bytesAt_zero hx, Option.getD_some]
  have hwf : Memory.wf u.params.initWord (u.loaded sr 1048576).fm := (hu.loadBytes hsrc le_rfl havail).1
  refine ⟨_, exec_deser_of_avail hsrc havail, rfl, Memory.ext _ hwf (hiw ▸ hs.1) fun x hx => ?_⟩
  exact (hread hx).trans (by rw [State.byteAt, hiw])

end Sys2Proof.Machine
end

section
/-! PROOFS. The statements of 60_exceptions.md on illegal encodings (R235), on the idle block (R244) and on `CapacityError` (R233). -/

namespace Sys2Proof.Machine

/-! ## No command, or none that is legal -/

/-- Settles O4: an idle step is the first case of `step_cases`. -/
theorem idleWithoutCommand : Obligations.IdleWithoutCommand := fun s hnil => by
  obtain ⟨-, e⟩ | ⟨w, ws, i, rest, hc, -, -⟩ | ⟨w, ws, err, rest, hc, -, -⟩ := step_cases s
  · exact e
  · cases hc.symm.trans hnil
  · cases hc.symm.trans hnil

/-- The decoder resumes where R62 says, after a legal command and after an illegal one. -/
theorem decodeCmd_snd_eq_resumeAfter (w : Word) (ws : List Word) : (decodeCmd w ws).2 = resumeAfter w ws := by
  have hgroup : opOf w = 0xC1#8 ∧ immOf w >>> 16 = 0 ↔ opNat w = 0xC1 ∧ immNat w < 65536 :=
    and_congr (opNat_eq_iff w).symm (countFits_iff w)
  rw [decodeCmd_snd, extraWords, resumeAfter, immOf_toNat]
  by_cases h : opNat w = 0xC1 ∧ immNat w < 65536
  · rw [if_pos (hgroup.2 h), if_pos h]
  · rw [if_neg (mt hgroup.1 h), if_neg h, List.drop_zero]

/-- Settles O2: the decoder answers an error and the resume point of R62, and the step answers the error. -/
theorem illegalCommandAnswered : Obligations.IllegalCommandAnswered := fun s w ws hc hill => by
  obtain ⟨err, herr⟩ := (decoderRefusesExactlyIllegal w ws).2 hill
  have hdec : decodeCmd w ws = (.error err, resumeAfter w ws) := Prod.ext herr (decodeCmd_snd_eq_resumeAfter w ws)
  simp only [step, takeCommand, hc, hdec, raise_eq]

/-! ## Commands that answer another status than `CapacityError` -/

/-- One response was given, and its status is not `CapacityError`. -/
def AnswersOther (s t : State) : Prop := ∃ st v, st ≠ .capacityError ∧ Answered s t st v

variable {s t : State} {r : Result}

theorem AnswersOther.not_capacityError (h : AnswersOther s t) (v : Int) : ¬Answered s t .capacityError v := by
  intro hcap
  obtain ⟨st, v', hst, hanswer⟩ := h
  have hlast := List.append_cancel_left (hanswer.symm.trans hcap)
  cases hlast
  exact hst rfl

theorem OnlyAnswers.answersOther (h : OnlyAnswers s r) : Ensures (AnswersOther s) r := by
  obtain ⟨st, v, hst, -, rfl | rfl⟩ := h
  · exact ensures_next.2 ⟨st, v, hst, rfl⟩
  · exact ensures_next.2 ⟨st, v, hst, rfl⟩

theorem StoresInTarget.answersOther (h : StoresInTarget s r) : Ensures (AnswersOther s) r := by
  obtain ⟨x, bs, -, -, rfl⟩ := h
  exact ensures_next.2 ⟨.ok, 0, nofun, rfl⟩

variable (s)

theorem sinkWrite_answersOther (bs : List Byte) : Ensures (AnswersOther s) (sinkWrite bs s) :=
  sinkWrite_ensures fun _ => ⟨.ok, 0, nofun, rfl⟩

theorem execDec_answersOther : Ensures (AnswersOther s) (execDec s) := by
  obtain ⟨-, e⟩ | ⟨sr, -, -, e⟩ | ⟨sr, -, -, e⟩ := execDec_cases s <;> rw [e]
  · exact ensures_refused _
  · exact ensures_next.2 ⟨.formatError, 0, nofun, rfl⟩
  · exact ensures_next.2 ⟨.ok, 0, nofun, rfl⟩

theorem execDeser_answersOther : Ensures (AnswersOther s) (execDeser s) := by
  obtain ⟨-, e⟩ | ⟨sr, n, -, -, -, e⟩ | ⟨sr, -, -, e⟩ := execDeser_cases s <;> rw [e]
  · exact ensures_refused _
  · exact ensures_next.2 ⟨.formatError, 0, nofun, rfl⟩
  · exact ensures_next.2 ⟨.ok, 0, nofun, rfl⟩

theorem execGetw_answersOther (j : Int) : Ensures (AnswersOther s) (execGetw j s) := by
  obtain ⟨-, e⟩ | ⟨-, -, e⟩ := execGetw_cases s j <;> rw [e]
  · exact ensures_next.2 ⟨.indexError, 0, nofun, rfl⟩
  · exact ensures_next.2 ⟨.ok, 0, nofun, rfl⟩

theorem execWnext_answersOther (hcur : s.cur ≠ 65536) (ms : List Mutator) :
    Ensures (AnswersOther s) (execWnext ms s) := by
  obtain ⟨hfull, -⟩ | ⟨-, e⟩ | ⟨m, -, -, -, ⟨-, e⟩ | ⟨-, e⟩⟩ := execWnext_cases s ms
  · exact absurd hfull hcur
  · exact e ▸ ensures_fault _
  · exact e ▸ ensures_next.2 ⟨.ok, 0, nofun, rfl⟩
  · exact e ▸ ensures_next.2 ⟨.rangeError, 0, nofun, rfl⟩

theorem exec_codec_answersOther (i : Instr) (hi : isCodec i = true) : Ensures (AnswersOther s) (exec i s) := by
  obtain h | h | rfl | rfl := exec_codec_cases s i hi
  · exact h.answersOther
  · exact h.answersOther
  · exact sinkWrite_answersOther s _
  · exact execDec_answersOther s

/-- Every command but a `WNEXT` at capacity (R233). -/
theorem exec_answersOther (i : Instr) (h : s.cur = 65536 → ∀ ms, i ≠ .wnext ms) :
    Ensures (AnswersOther s) (exec i s) := by
  cases i with
  | cinit => exact ensures_next.2 ⟨.ok, 0, nofun, rfl⟩
  | wnext ms => exact execWnext_answersOther s (fun hcur => h hcur ms rfl) ms
  | finish => exact ensures_next.2 ⟨.ok, 0, nofun, rfl⟩
  | getw j => exact execGetw_answersOther s j
  | ser => exact sinkWrite_answersOther s _
  | deser => exact execDeser_answersOther s
  | _ => exact exec_codec_answersOther s _ rfl

/-- Settles O50: the first check of `WNEXT` is the capacity, and every other end of a command has another status. -/
theorem wnextCapacityError : Obligations.WnextCapacityError := by
  refine ⟨fun s ms hcur => if_pos hcur, fun i s t v h hcap => ?_⟩
  by_contra hother
  have hanswers := exec_answersOther s i fun hcur ms hi => hother ⟨hcur, ms, hi⟩
  exact (hanswers t h).not_capacityError v hcap

end Sys2Proof.Machine
end

section
/-! PROOFS. The statements of 70_reset_and_hazards.md: the state after reset (R260), and what the streams decide of a command (R263, R272): a missing stream refuses it, nothing else does, and with its streams attached every command is answered. -/

namespace Sys2Proof.Machine

/-! ## The state after reset -/

/-- Settles O9: no cell is listed at reset, so every byte reads as that of `ACTIVE_RESET`. -/
theorem resetState : Obligations.ResetState :=
  ⟨fun x _ => getD_initRecord .activeCentred (Nat.mod_lt x (by decide)), rfl, rfl, rfl⟩

/-! ## What the streams decide of a result -/

/-- The stream condition that the refusal `e` names holds of `s` (R17, R263). -/
def StreamCause (s : State) (e : Refusal) : Prop :=
  (e = .noByteSource ∧ s.src = none) ∨ (e = .noByteSink ∧ s.snk = none) ∨ (e = .sinkMayFail ∧ s.params.sinkFails = true)

/-- A next state has the streams attached that `s` had, and a refusal has its cause in the streams of `s`. -/
def StreamsDecide (s : State) : Result → Prop
  | .next t => t.src.isSome = s.src.isSome ∧ t.snk.isSome = s.snk.isSome
  | .fault _ => True
  | .refused e => StreamCause s e

variable {s : State} {r : Result}

theorem streamsDecide_next {t : State} (hsrc : t.src.isSome = s.src.isSome) (hsnk : t.snk.isSome = s.snk.isSome) :
    StreamsDecide s (.next t) := ⟨hsrc, hsnk⟩

theorem streamsDecide_fault (f : Fault) : StreamsDecide s (.fault f) := trivial

theorem streamsDecide_noByteSource (h : s.src = none) : StreamsDecide s (.refused .noByteSource) := .inl ⟨rfl, h⟩

theorem streamsDecide_noByteSink (h : s.snk = none) : StreamsDecide s (.refused .noByteSink) := .inr (.inl ⟨rfl, h⟩)

theorem streamsDecide_sinkMayFail (h : s.params.sinkFails = true) : StreamsDecide s (.refused .sinkMayFail) :=
  .inr (.inr ⟨rfl, h⟩)

/-! ## Every command and every step -/

theorem OnlyAnswers.streamsDecide (h : OnlyAnswers s r) : StreamsDecide s r := by
  obtain ⟨st, v, -, -, rfl | rfl⟩ := h <;> exact streamsDecide_next rfl rfl

theorem StoresInTarget.streamsDecide (h : StoresInTarget s r) : StreamsDecide s r := by
  obtain ⟨x, bs, -, -, rfl⟩ := h
  exact streamsDecide_next rfl rfl

variable (s)

theorem sinkWrite_streamsDecide (bs : List Byte) : StreamsDecide s (sinkWrite bs s) := by
  obtain ⟨hfail, e⟩ | ⟨-, hsnk, e⟩ | ⟨out, -, hsnk, e⟩ := sinkWrite_cases s bs <;> rw [e]
  · exact streamsDecide_sinkMayFail hfail
  · exact streamsDecide_noByteSink hsnk
  · exact streamsDecide_next rfl (by rw [hsnk]; rfl)

theorem execDec_streamsDecide : StreamsDecide s (execDec s) := by
  obtain ⟨hsrc, e⟩ | ⟨sr, hsrc, -, e⟩ | ⟨sr, hsrc, -, e⟩ := execDec_cases s <;> rw [e]
  · exact streamsDecide_noByteSource hsrc
  · exact streamsDecide_next (by rw [hsrc]; rfl) rfl
  · exact streamsDecide_next (by rw [hsrc]; rfl) rfl

theorem execDeser_streamsDecide : StreamsDecide s (execDeser s) := by
  obtain ⟨hsrc, e⟩ | ⟨sr, n, hsrc, -, -, e⟩ | ⟨sr, hsrc, -, e⟩ := execDeser_cases s <;> rw [e]
  · exact streamsDecide_noByteSource hsrc
  · exact streamsDecide_next (by rw [hsrc]; rfl) rfl
  · exact streamsDecide_next (by rw [hsrc]; rfl) rfl

theorem execWnext_streamsDecide (ms : List Mutator) : StreamsDecide s (execWnext ms s) := by
  obtain ⟨-, e⟩ | ⟨-, e⟩ | ⟨m, -, -, -, ⟨-, e⟩ | ⟨-, e⟩⟩ := execWnext_cases s ms <;> rw [e]
  · exact streamsDecide_next rfl rfl
  · exact streamsDecide_fault _
  · exact streamsDecide_next rfl rfl
  · exact streamsDecide_next rfl rfl

theorem execGetw_streamsDecide (i : Int) : StreamsDecide s (execGetw i s) := by
  obtain ⟨-, e⟩ | ⟨-, -, e⟩ := execGetw_cases s i <;> rw [e]
  · exact streamsDecide_next rfl rfl
  · exact streamsDecide_next rfl rfl

theorem exec_codec_streamsDecide (i : Instr) (hi : isCodec i = true) : StreamsDecide s (exec i s) := by
  obtain h | h | rfl | rfl := exec_codec_cases s i hi
  · exact h.streamsDecide
  · exact h.streamsDecide
  · exact sinkWrite_streamsDecide s _
  · exact execDec_streamsDecide s

theorem exec_streamsDecide (i : Instr) : StreamsDecide s (exec i s) := by
  cases i with
  | cinit => exact streamsDecide_next rfl rfl
  | wnext ms => exact execWnext_streamsDecide s ms
  | finish => exact streamsDecide_next rfl rfl
  | getw j => exact execGetw_streamsDecide s j
  | ser => exact sinkWrite_streamsDecide s _
  | deser => exact execDeser_streamsDecide s
  | _ => exact exec_codec_streamsDecide s _ rfl

theorem step_streamsDecide : StreamsDecide s (step s) := by
  obtain ⟨-, e⟩ | ⟨w, ws, i, rest, -, -, e⟩ | ⟨w, ws, err, rest, -, -, e⟩ := step_cases s <;> rw [e]
  · exact streamsDecide_next rfl rfl
  · exact exec_streamsDecide (s.setCmds rest) i
  · exact streamsDecide_next rfl rfl

/-- Settles O19: only the sink write, `DEC` and `DESER` refuse, each by its own name. -/
theorem refusalOnlyForStreams : Obligations.RefusalOnlyForStreams := fun s e h => by
  have hstep := step_streamsDecide s
  rw [h] at hstep
  exact hstep

/-! ## Every command is answered -/

variable {s}

/-- Streams that are attached, with a sink that never fails, give no cause to refuse. -/
theorem State.StreamsReady.no_cause (h : s.StreamsReady) (e : Refusal) : ¬StreamCause s e := by
  obtain ⟨hsrc, hsnk, hfail⟩ := h
  rintro (⟨-, h⟩ | ⟨-, h⟩ | ⟨-, h⟩)
  · simp [h] at hsrc
  · simp [h] at hsnk
  · simp [h] at hfail

theorem exec_completes (hcur : s.cur ≤ 65536) (hready : s.StreamsReady) (i : Instr) : ∃ t, exec i s = .next t := by
  have hstreams := exec_streamsDecide s i
  cases h : exec i s with
  | next t => exact ⟨t, rfl⟩
  | fault f => exact absurd h (exec_noFault s hcur i f)
  | refused e =>
    rw [h] at hstreams
    exact absurd hstreams (hready.no_cause e)

/-- No command detaches a stream or makes the sink fallible. -/
theorem exec_streamsReady (hready : s.StreamsReady) (i : Instr) : Ensures State.StreamsReady (exec i s) := fun t h => by
  have hstreams := exec_streamsDecide s i
  rw [h] at hstreams
  obtain ⟨hsrc, hsnk⟩ := hstreams
  obtain ⟨hsrc', hsnk', hfail⟩ := hready
  exact ⟨hsrc.trans hsrc', hsnk.trans hsnk', by rwa [exec_keepsParams s i t h]⟩

/-- Settles O20: no command faults below the cursor's bound or is refused with its streams attached, and what it then
answers keeps the invariant and the streams. -/
theorem everyCommandAnswered : Obligations.EveryCommandAnswered := fun i s hs hready => by
  obtain ⟨t, h⟩ := exec_completes hs.2.1 hready i
  obtain ⟨st, v, hanswer, -⟩ := exec_answersOnce s i t h
  exact ⟨t, ⟨st, v⟩, h, hanswer, exec_inv hs i t h, exec_streamsReady hready i t h⟩

/-! ## Commands without their stream -/

theorem exec_dec_of_no_source (h : s.src = none) : exec .dec s = .refused .noByteSource := by
  show execDec s = _
  rw [execDec, h]

theorem exec_deser_of_no_source (h : s.src = none) : exec .deser s = .refused .noByteSource := by
  show execDeser s = _
  rw [execDeser, h]

theorem sinkWrite_of_no_sink (hfail : s.params.sinkFails = false) (hsnk : s.snk = none) (bs : List Byte) :
    sinkWrite bs s = .refused .noByteSink := by
  rw [sinkWrite, hfail, hsnk]
  rfl

theorem sinkWrite_of_sinkFails (h : s.params.sinkFails = true) (bs : List Byte) :
    sinkWrite bs s = .refused .sinkMayFail := if_pos h

/-- Settles O21: `DEC` and `DESER` look at the source first, and `ENC` and `SER` are one sink write. -/
theorem streamCommandsRefusedWithoutStream : Obligations.StreamCommandsRefusedWithoutStream := fun _ =>
  ⟨fun hsrc => ⟨exec_dec_of_no_source hsrc, exec_deser_of_no_source hsrc⟩,
    fun hfail hsnk => ⟨sinkWrite_of_no_sink hfail hsnk _, sinkWrite_of_no_sink hfail hsnk _⟩,
    fun hfail => ⟨sinkWrite_of_sinkFails hfail _, sinkWrite_of_sinkFails hfail _⟩⟩

end Sys2Proof.Machine
end
